-- ==== Sys2Proof/Word.lean ====
section
/-! DEFINITION. The word types of the infrared_command_encoder (00_scope.md R9, R10, R11). Bit 0 has weight 1. -/

namespace Sys2Proof

/-- A byte: `BYTE_W` = 8 bits, unsigned (00_scope.md R9, R11). Also the raw bits of `temp_c` (`TEMP_W` = 8, R42). -/
abbrev Byte := BitVec 8

/-- Four bits: the operand and result of `REV4`, and `temp_idx` (10_state.md R22). -/
abbrev Nibble := BitVec 4

/-- A selector: `MODE_SEL_W` = `FAN_SEL_W` = 3 bits (00_scope.md R9). -/
abbrev Sel := BitVec 3

/-- A request word `req`, 14 bits (30_encoding.md R39). -/
abbrev Req := BitVec 14

/-- `total` of the checksum, 10 bits (10_state.md R22). -/
abbrev Total := BitVec 10

end Sys2Proof
end

