-- ==== Sys2Proof/Syntax.lean ====
section
/-! DEFINITION. The operations (one constructor per row of opcode_table.json), the sub-blocks they are presented to, what is
presented on a sub-block's pins, and the written form of requests (30_encoding.md R38 to R47). -/

namespace Sys2Proof

/-- The seven sub-blocks (00_scope.md R3). Each has ONE operand format (30_encoding.md R38), named in its comment; which
sub-block is addressed is no bit of any format. -/
inductive SubBlock where
  | frameAssembler          -- REQ
  | bitReversal8            -- U8
  | bitReversal4            -- U4
  | modeCodeTableLut        -- SEL
  | fanSpeedCodeTableLut    -- SEL
  | temperatureEncoder      -- TMP
  | checksumCalculator      -- CS3
deriving DecidableEq, Repr

/-- The width of a sub-block's operand format (30_encoding.md R38). -/
def SubBlock.width : SubBlock → Nat
  | .frameAssembler => 14
  | .bitReversal8 => 8
  | .bitReversal4 => 4
  | .modeCodeTableLut => 3
  | .fanSpeedCodeTableLut => 3
  | .temperatureEncoder => 8
  | .checksumCalculator => 24

/-- What stands on one input pin: 0, 1, or something that is no defined binary value, "unknown, floating, metastable"
(60_exceptions.md R98). -/
inductive Level where
  | zero
  | one
  | undefined
deriving DecidableEq, Repr

/-- One request, or one operand of an internal sub-block, as it is presented: the sub-block and the level of each of its
operand pins, bit 0 of the format first. -/
structure Presented where
  unit : SubBlock
  pins : List Level
deriving DecidableEq, Repr

/-- The operations, one per row of opcode_table.json. Every operand has exactly the bits its format gives it, and every
value of them is legal (30_encoding.md R45). `fan` is `fan_sel`, `temp` is `temp_c`; `encodeUnknown`'s `x` is
`mode_sel[0]`, either value (R44: `11x`). -/
inductive Instr where
  | encodeAuto (fan : Sel) (temp : Byte)
  | encodeCool (fan : Sel) (temp : Byte)
  | encodeDry (fan : Sel) (temp : Byte)
  | encodeFan (fan : Sel) (temp : Byte)
  | encodeHeat (fan : Sel) (temp : Byte)
  | encodeOff (fan : Sel) (temp : Byte)
  | encodeUnknown (x : BitVec 1) (fan : Sel) (temp : Byte)
  | rev8 (n : Byte)
  | rev4 (n : Nibble)
  | modeLut (s : Sel)
  | fanLut (s : Sel)
  | tempEnc (t : Byte)
  | checksum (m t f : Byte)
deriving DecidableEq, Repr

/-- The row's mnemonic in opcode_table.json. -/
def Instr.mnemonic : Instr → String
  | .encodeAuto _ _ => "ENCODE.AUTO"
  | .encodeCool _ _ => "ENCODE.COOL"
  | .encodeDry _ _ => "ENCODE.DRY"
  | .encodeFan _ _ => "ENCODE.FAN"
  | .encodeHeat _ _ => "ENCODE.HEAT"
  | .encodeOff _ _ => "ENCODE.OFF"
  | .encodeUnknown _ _ _ => "ENCODE.UNKNOWN"
  | .rev8 _ => "REV8"
  | .rev4 _ => "REV4"
  | .modeLut _ => "MODE_LUT"
  | .fanLut _ => "FAN_LUT"
  | .tempEnc _ => "TEMP_ENC"
  | .checksum _ _ _ => "CHECKSUM"

/-- The sub-block an operation is presented to (30_encoding.md R38, the column "used by"). -/
def Instr.unit : Instr → SubBlock
  | .encodeAuto _ _ => .frameAssembler
  | .encodeCool _ _ => .frameAssembler
  | .encodeDry _ _ => .frameAssembler
  | .encodeFan _ _ => .frameAssembler
  | .encodeHeat _ _ => .frameAssembler
  | .encodeOff _ _ => .frameAssembler
  | .encodeUnknown _ _ _ => .frameAssembler
  | .rev8 _ => .bitReversal8
  | .rev4 _ => .bitReversal4
  | .modeLut _ => .modeCodeTableLut
  | .fanLut _ => .fanSpeedCodeTableLut
  | .tempEnc _ => .temperatureEncoder
  | .checksum _ _ _ => .checksumCalculator

/-- The `<mode>` of a written request (30_encoding.md R47). -/
inductive ModeName where
  | auto | cool | dry | fan | heat | off | unk6 | unk7
deriving DecidableEq, Repr

/-- The `<fan>` of a written request (30_encoding.md R47). -/
inductive FanName where
  | auto | high | med | low | quiet | unk5 | unk6 | unk7
deriving DecidableEq, Repr

/-- A written request or sub-block operation, and the one pseudo-operation `POWER_OFF` (30_encoding.md R47). Numbers are
decimal integers as written. -/
inductive Written where
  | encode (mode : ModeName) (fan : FanName) (temp : Int)
  | powerOff
  | rev8 (n : Int)
  | rev4 (n : Int)
  | modeLut (mode : ModeName)
  | fanLut (fan : FanName)
  | tempEnc (temp : Int)
  | checksum (m t f : Int)
deriving DecidableEq, Repr

end Sys2Proof
end

