-- ==== Sys2Proof/WellFormed.lean ====
section
/-! DEFINITION. What is well formed. An `Instr` needs no check: its operands have exactly the bits of their format and every
value is legal (30_encoding.md R45). Checked are what is presented on the pins (as many pins as the format has bits, every
one at 0 or 1: R38, 60_exceptions.md R98) and the numbers of a written request (R47, 00_scope.md R11). -/

namespace Sys2Proof

/-- The level is a defined binary value (60_exceptions.md R98). -/
def Level.defined : Level → Bool
  | .zero => true
  | .one => true
  | .undefined => false

/-- As many pins as the sub-block's format has bits (30_encoding.md R38). -/
def Presented.rightPinCount (p : Presented) : Bool := p.pins.length == p.unit.width

/-- "Every input bit is taken to be 0 or 1" (60_exceptions.md R98). -/
def Presented.allDefined (p : Presented) : Bool := p.pins.all Level.defined

/-- A request or operand that the block can be given. -/
def Presented.wellFormed (p : Presented) : Bool := p.rightPinCount && p.allDefined

/-- `<temp>` is "a decimal integer in [-128, 127]" (30_encoding.md R47). -/
def tempInRange (t : Int) : Bool := -128 ≤ t && t ≤ 127

/-- A byte is an integer in [0, 255] (00_scope.md R11). -/
def isByte (n : Int) : Bool := 0 ≤ n && n ≤ 255

/-- The numbers of a written request are ones its form admits. `REV8` and `REV4` cut any integer to their low bits
themselves (40_bit_reversal.md R48, R51), so they take every integer. -/
def Written.wellFormed : Written → Bool
  | .encode _ _ temp => tempInRange temp
  | .powerOff => true
  | .rev8 _ => true
  | .rev4 _ => true
  | .modeLut _ => true
  | .fanLut _ => true
  | .tempEnc temp => tempInRange temp
  | .checksum m t f => isByte m && isByte t && isByte f

end Sys2Proof
end

