-- ==== Sys2Proof/Decode.lean ====
section
/-! DEFINITION. Reading what is presented on a sub-block's pins as an operation (30_encoding.md R38 to R46), the encoder
beside it, and the host's table words. -/

namespace Sys2Proof

/-- Why presented pins are no operation. -/
inductive DecodeError where
  /-- Not as many pins as the format has bits (30_encoding.md R38). -/
  | wrongPinCount
  /-- A pin is at no defined binary value (60_exceptions.md R98). -/
  | undefinedBit
deriving DecidableEq, Repr

/-- The unsigned number on the pins, pin 0 of weight 1 (00_scope.md R10); none if a pin is undefined. -/
def readPins : List Level → Option Nat
  | [] => some 0
  | .zero :: rest => (readPins rest).map fun w => 2 * w
  | .one :: rest => (readPins rest).map fun w => 2 * w + 1
  | .undefined :: _ => none

/-- The low `k` bits of `w` as pins, bit 0 first. -/
def writePins : Nat → Nat → List Level
  | 0, _ => []
  | k + 1, w => (if w % 2 = 1 then .one else .zero) :: writePins k (w / 2)

/-- The operation of a request, "chosen by mode_sel alone" (30_encoding.md R40, R44). -/
def requestInstr (modeSel fanSel : Sel) (tempC : Byte) : Instr :=
  match modeSel.toNat with
  | 0 => .encodeAuto fanSel tempC
  | 1 => .encodeCool fanSel tempC
  | 2 => .encodeDry fanSel tempC
  | 3 => .encodeFan fanSel tempC
  | 4 => .encodeHeat fanSel tempC
  | 5 => .encodeOff fanSel tempC
  | _ => .encodeUnknown (modeSel.extractLsb' 0 1) fanSel tempC

/-- A request word's operation: `mode_sel` = `req[13:11]`, `fan_sel` = `req[10:8]`, `temp_c` = `req[7:0]`
(30_encoding.md R38, R39). -/
def decodeReq (req : Req) : Instr :=
  requestInstr (req.extractLsb' 11 3) (req.extractLsb' 8 3) (req.extractLsb' 0 8)

/-- The operation whose operand bits are `w`, in the sub-block's format (30_encoding.md R38). -/
def decodeWord (u : SubBlock) (w : Nat) : Instr :=
  match u with
  | .frameAssembler => decodeReq (BitVec.ofNat 14 w)
  | .bitReversal8 => .rev8 (BitVec.ofNat 8 w)
  | .bitReversal4 => .rev4 (BitVec.ofNat 4 w)
  | .modeCodeTableLut => .modeLut (BitVec.ofNat 3 w)
  | .fanSpeedCodeTableLut => .fanLut (BitVec.ofNat 3 w)
  | .temperatureEncoder => .tempEnc (BitVec.ofNat 8 w)
  | .checksumCalculator =>
    .checksum ((BitVec.ofNat 24 w).extractLsb' 16 8) ((BitVec.ofNat 24 w).extractLsb' 8 8)
      ((BitVec.ofNat 24 w).extractLsb' 0 8)

/-- The decoder: total, and rejecting by name what is no operand of the sub-block. With the right number of defined pins
there is always an operation: "No encoding is illegal, reserved or a hint" (30_encoding.md R45). -/
def decode (p : Presented) : Except DecodeError Instr :=
  if p.rightPinCount then
    match readPins p.pins with
    | some w => .ok (decodeWord p.unit w)
    | none => .error .undefinedBit
  else .error .wrongPinCount

/-! ### The encoder -/

/-- `req = {mode_sel[2:0], fan_sel[2:0], temp_c[7:0]}` (30_encoding.md R39). -/
def reqWord (modeSel fanSel : Sel) (tempC : Byte) : Req := modeSel ++ fanSel ++ tempC

/-- The operand bits of an operation as a number, bit 0 the least significant (30_encoding.md R38 to R41, R44). -/
def encodeWord : Instr → Nat
  | .encodeAuto fan temp => (reqWord 0b000 fan temp).toNat
  | .encodeCool fan temp => (reqWord 0b001 fan temp).toNat
  | .encodeDry fan temp => (reqWord 0b010 fan temp).toNat
  | .encodeFan fan temp => (reqWord 0b011 fan temp).toNat
  | .encodeHeat fan temp => (reqWord 0b100 fan temp).toNat
  | .encodeOff fan temp => (reqWord 0b101 fan temp).toNat
  | .encodeUnknown x fan temp => (reqWord (0b11#2 ++ x) fan temp).toNat
  | .rev8 n => n.toNat
  | .rev4 n => n.toNat
  | .modeLut s => s.toNat
  | .fanLut s => s.toNat
  | .tempEnc t => t.toNat
  | .checksum m t f => (m ++ t ++ f).toNat

/-- What is presented to have an operation performed. -/
def encode (i : Instr) : Presented := ⟨i.unit, writePins i.unit.width (encodeWord i)⟩

/-! ### The host's table words -/

/-- The sub-block a table word of this many bits is presented to. A word carries no bit that names its sub-block
(30_encoding.md R38: "no format has an opcode field"), so the width alone chooses (log entry 6): the widths 8 and 3, which
several formats share, go to the table's first row of that width. -/
def tableUnit (nbits : Nat) : SubBlock :=
  match nbits with
  | 3 => .modeCodeTableLut
  | 4 => .bitReversal4
  | 8 => .bitReversal8
  | 24 => .checksumCalculator
  | _ => .frameAssembler

/-- A table word as it is presented: the whole-byte padding above the format's width is dropped where it is 0; a word that
does not fit the format is presented with a pin too many, so that the decoder refuses it. -/
def tablePresented (nbits w : Nat) : Presented :=
  let u := tableUnit nbits
  if u.width ≤ nbits ∧ w < 2 ^ u.width then ⟨u, writePins u.width w⟩ else ⟨u, writePins (max nbits (u.width + 1)) w⟩

/-- What the decoder reads from a word of opcode_table.json (log entry 6). -/
def decodeTableWord (nbits w : Nat) : Option Instr :=
  match decode (tablePresented nbits w) with
  | .ok i => some i
  | .error _ => none

end Sys2Proof
end

