-- ==== Sys2Proof/Machine/Operands.lean ====
section
/-! DEFINITION. How operand bits are read (30_encoding.md R42, R43): the signed temperature, single bits, and the zero
extension of the checksum's summands. -/

namespace Sys2Proof.Machine

/-- The temperature on `temp_c`: `temp_c[7:0] - 256 * temp_c[7]`, in [-128, 127] (30_encoding.md R42). -/
def tempValue (tempC : Byte) : Int := (tempC.toNat : Int) - 256 * (if tempC.getLsbD 7 then 1 else 0)

/-- `v[i]` as one bit (00_scope.md R10). -/
def bit (v : BitVec w) (i : Nat) : BitVec 1 := v.extractLsb' i 1

/-- `zext_10(v)`: the checksum's summands are zero-extended to 10 bits (30_encoding.md R43). -/
def zext10 (v : Byte) : Total := v.setWidth 10

end Sys2Proof.Machine
end

