-- ==== Sys2Proof/Machine/BitReversal.lean ====
section
/-! DEFINITION. The sub-blocks `bit_reversal_8` and `bit_reversal_4` (40_bit_reversal.md R48 to R53). -/

namespace Sys2Proof.Machine

/-- `REV8` on its 8 bits: `r = {n[0], n[1], n[2], n[3], n[4], n[5], n[6], n[7]}` (40_bit_reversal.md R48). -/
def rev8 (n : Byte) : Byte :=
  bit n 0 ++ bit n 1 ++ bit n 2 ++ bit n 3 ++ bit n 4 ++ bit n 5 ++ bit n 6 ++ bit n 7

/-- `REV8` applied to any integer: "Input is implicitly masked to 8 bits before reversal" (40_bit_reversal.md R48). -/
def rev8Of (n : Int) : Byte := rev8 (BitVec.ofInt 8 (n % 256))

/-- The loop of `REV4`: `k` more times, `acc <- (acc << 1) | (n & 1)` and `n <- n >> 1` (40_bit_reversal.md R50), on any
integer `n`, whose low bits are those of its two's complement (R51). -/
def rev4Loop : Nat → Nat → Int → Nat
  | 0, acc, _ => acc
  | k + 1, acc, n => rev4Loop k ((acc <<< 1) ||| (n % 2).toNat) (n / 2)

/-- `REV4` applied to any integer (40_bit_reversal.md R50, R51). -/
def rev4Of (n : Int) : Nibble := BitVec.ofNat 4 (rev4Loop 4 0 n)

/-- `REV4` on its 4 bits (40_bit_reversal.md R50). -/
def rev4 (n : Nibble) : Nibble := rev4Of n.toNat

end Sys2Proof.Machine
end

