-- ==== Sys2Proof/Machine/ChecksumCalculator.lean ====
section
/-! DEFINITION. The sub-block `checksum_calculator` (44_checksum.md R87 to R93). -/

namespace Sys2Proof.Machine

/-- Step 1: `total = 32 + REV8(m) + REV8(t) + REV8(f)`; 10 bits hold every value, so nothing wraps (44_checksum.md R87). -/
def checksumTotal (m t f : Byte) : Total := 32 + zext10 (rev8 m) + zext10 (rev8 t) + zext10 (rev8 f)

/-- Step 2: `diff = (208 - total) mod 256`, "the mathematical non-negative remainder" (44_checksum.md R88). -/
def checksumDiff (total : Total) : Byte := BitVec.ofInt 8 ((208 - (total.toNat : Int)) % 256)

/-- `CHECKSUM m, t, f`: step 3 is `checksum = REV8(diff)` (44_checksum.md R89). -/
def checksumOf (m t f : Byte) : Byte := rev8 (checksumDiff (checksumTotal m t f))

end Sys2Proof.Machine
end

