-- ==== Sys2Proof/Machine/CodeTables.lean ====
section
/-! DEFINITION. The sub-blocks `mode_code_table_lut` and `fan_speed_code_table_lut`: two constant tables of 8 entries of 8
bits (41_code_tables.md R54 to R57, 20_memory.md R25). -/

namespace Sys2Proof.Machine

/-- AUTO, COOL, DRY, FAN, HEAT, then OFF and the two unrecognized values, which fall back to 0x00 (41_code_tables.md R54). -/
def modeTable : Vector Byte 8 := #v[0x00, 0x80, 0x40, 0xC0, 0x20, 0x00, 0x00, 0x00]

/-- AUTO, HIGH, MED, LOW, QUIET, then the three unrecognized values, which fall back to 0x00 (41_code_tables.md R55). -/
def fanTable : Vector Byte 8 := #v[0x00, 0x80, 0x40, 0xC0, 0x20, 0x00, 0x00, 0x00]

/-- `MODE_LUT s` (41_code_tables.md R54): defined for every selector, and it cannot fail (20_memory.md R25). -/
def modeLut (s : Sel) : Byte := modeTable[s.toNat]'s.isLt

/-- `FAN_LUT s` (41_code_tables.md R55). -/
def fanLut (s : Sel) : Byte := fanTable[s.toNat]'s.isLt

end Sys2Proof.Machine
end

