-- ==== Sys2Proof/Machine/Flags.lean ====
section
/-! DEFINITION. The block has no status flags and no operation sets one (10_state.md R16). What says which branch was taken
is the signal `is_off` (43_frame_assembler.md R69) and, at the outputs, the frame length (R21, R76). -/

namespace Sys2Proof.Machine

/-- `is_off <- (mode_sel == 101)` (43_frame_assembler.md R69). -/
def isOff (modeSel : Sel) : Bool := modeSel == 0b101

/-- `frame_len <- len(frame)`, 4 bits (43_frame_assembler.md R73). -/
def frameLenOf (frame : List Byte) : BitVec 4 := BitVec.ofNat 4 frame.length

end Sys2Proof.Machine
end

