-- ==== Sys2Proof/Machine/Ports.lean ====
section
/-! DEFINITION. The wires the spec names: the block's inputs, internal signals and outputs (10_state.md R20 to R22), and the
operand and result wires of the six sub-blocks standing by themselves (30_encoding.md R38). Values only: what drives them is
in the files after this one. -/

namespace Sys2Proof.Machine

/-- The block's three inputs (10_state.md R20). `tempC` holds the 8 bits of `temp_c`, signed (30_encoding.md R42). -/
structure Inputs where
  modeSel : Sel
  fanSel : Sel
  tempC : Byte
deriving DecidableEq, Repr

/-- The block's internal combinational signals, under the names of 10_state.md R22. -/
structure Signals where
  isOff : Bool
  modeCode : Byte
  fanCode : Byte
  tempCode : Byte
  tempIdx : Nibble
  total : Total
  diff : Byte
  checksum : Byte
deriving DecidableEq, Repr

/-- The block's two outputs: `frame_len` (4 bits) and the 14 lanes `frame_byte[i]` (10_state.md R21). -/
structure Outputs where
  frameLen : BitVec 4
  frameByte : Vector Byte 14
deriving DecidableEq, Repr

/-- All the wires of the block. -/
structure Block where
  inputs : Inputs
  signals : Signals
  outputs : Outputs
deriving DecidableEq, Repr

/-- A `bit_reversal_8`: operand `n` (format U8), result `r` (40_bit_reversal.md R48). -/
structure Rev8Unit where
  n : Byte
  r : Byte
deriving DecidableEq, Repr

/-- A `bit_reversal_4`: operand `n` (format U4), result `r` (40_bit_reversal.md R50). -/
structure Rev4Unit where
  n : Nibble
  r : Nibble
deriving DecidableEq, Repr

/-- A code table, `mode_code_table_lut` or `fan_speed_code_table_lut`: selector `s` (format SEL), result `code`
(41_code_tables.md R54, R55). -/
structure LutUnit where
  s : Sel
  code : Byte
deriving DecidableEq, Repr

/-- A `temperature_encoder`: operand `t` (format TMP, signed), and the wires of 42_temperature_encoder.md R63. -/
structure TempUnit where
  t : Byte
  tempIdx : Nibble
  tempCode : Byte
deriving DecidableEq, Repr

/-- A `checksum_calculator`: operands `m`, `t`, `f` (format CS3), and the wires of 44_checksum.md R87 to R89. -/
structure ChecksumUnit where
  m : Byte
  t : Byte
  f : Byte
  total : Total
  diff : Byte
  checksum : Byte
deriving DecidableEq, Repr

end Sys2Proof.Machine
end

