-- ==== Sys2Proof/Machine/TemperatureEncoder.lean ====
section
/-! DEFINITION. The sub-block `temperature_encoder` (42_temperature_encoder.md R63 to R68), on any integer temperature: no
range check, no clamp (R66). -/

namespace Sys2Proof.Machine

/-- `temp_idx <- (t - 16) mod 16`, the mathematical remainder (42_temperature_encoder.md R63, 00_scope.md R12). -/
def tempIdx (t : Int) : Nibble := BitVec.ofInt 4 ((t - 16) % 16)

/-- `TEMP_ENC t`: `r <- REV4(temp_idx) & 0xF` and `temp_code <- r + 128` (42_temperature_encoder.md R63). -/
def tempEnc (t : Int) : Byte := (rev4 (tempIdx t) &&& 0xF).setWidth 8 + 128

end Sys2Proof.Machine
end

