-- ==== Sys2Proof/Machine/FrameAssembler.lean ====
section
/-! DEFINITION. The sub-block `frame_assembler`, the top level of the block: its signals, its frame and its output lanes as
functions of the three inputs (43_frame_assembler.md R69 to R79, 10_state.md R22). -/

namespace Sys2Proof.Machine

/-- The header, positions 0 to 5 of the command frame (43_frame_assembler.md R71). -/
def header : List Byte := [0, 8, 8, 127, 144, 12]

/-- The filler, positions 9 to 12 of the command frame (43_frame_assembler.md R71). -/
def filler : List Byte := [0, 0, 0, 4]

/-- The power-off frame, a constant (43_frame_assembler.md R70). -/
def offFrame : List Byte := [0, 8, 8, 64, 191]

/-- The command frame of three codes and a checksum, 14 bytes (43_frame_assembler.md R71, 90_conflicts.md C1). The
temperature code precedes the mode code (R72). -/
def commandFrame (tempCode modeCode fanCode checksum : Byte) : List Byte :=
  header ++ [tempCode, modeCode, fanCode] ++ filler ++ [checksum]

/-- Every internal signal as a function of the inputs (10_state.md R22). They have these values on the power-off branch too,
where none of them reaches an output (43_frame_assembler.md R85; log entry 7). -/
def signalsOf (i : Inputs) : Signals :=
  let t := tempValue i.tempC
  let m := modeLut i.modeSel
  let f := fanLut i.fanSel
  { isOff := isOff i.modeSel
    modeCode := m
    fanCode := f
    tempCode := tempEnc t
    tempIdx := tempIdx t
    total := checksumTotal m (tempEnc t) f
    diff := checksumDiff (checksumTotal m (tempEnc t) f)
    checksum := checksumOf m (tempEnc t) f }

/-- The frame the assembler makes of its signals: the branch of 43_frame_assembler.md R69, R73. -/
def assemble (g : Signals) : List Byte :=
  if g.isOff then offFrame else commandFrame g.tempCode g.modeCode g.fanCode g.checksum

/-- The block's function, `encode(mode_sel, fan_sel, temp_c) -> frame` (43_frame_assembler.md R73, 00_scope.md R13). -/
def encodeFrame (i : Inputs) : List Byte := assemble (signalsOf i)

/-- The output wires that carry a frame: its length, and `frame_byte[i] <- frame[i] if i < frame_len else 0x00`
(43_frame_assembler.md R73, R74). -/
def outputsOf (frame : List Byte) : Outputs :=
  { frameLen := frameLenOf frame
    frameByte := Vector.ofFn fun i : Fin 14 => frame.getD i.val 0 }

/-- The whole block, settled on these inputs (10_state.md R23). -/
def Block.settledOn (i : Inputs) : Block :=
  { inputs := i, signals := signalsOf i, outputs := outputsOf (encodeFrame i) }

/-- The frame on the output wires: `[frame_byte[0], ..., frame_byte[frame_len - 1]]` (10_state.md R21). -/
def Outputs.frame (o : Outputs) : List Byte := o.frameByte.toList.take o.frameLen.toNat

/-- A sequence of bytes as one number, the first byte least significant (20_memory.md R30). -/
def packBytes : List Byte → Nat
  | [] => 0
  | b :: rest => b.toNat + 256 * packBytes rest

/-- `frame_bus`: the 14 lanes as one 112-bit bus, lane `i` at `frame_bus[8*i + 7 : 8*i]` (20_memory.md R30). -/
def Outputs.frameBus (o : Outputs) : BitVec 112 := BitVec.ofNat 112 (packBytes o.frameByte.toList)

end Sys2Proof.Machine
end

