-- ==== Sys2Proof/Machine/SubBlocks.lean ====
section
/-! DEFINITION. The six internal sub-blocks standing by themselves, settled on an operand (30_encoding.md R38, 92_eei_decisions.md
D25): operand and result wires together. -/

namespace Sys2Proof.Machine

/-- A `bit_reversal_8` settled on `n` (40_bit_reversal.md R48). -/
def Rev8Unit.settledOn (n : Byte) : Rev8Unit := ⟨n, rev8 n⟩

/-- A `bit_reversal_4` settled on `n` (40_bit_reversal.md R50). -/
def Rev4Unit.settledOn (n : Nibble) : Rev4Unit := ⟨n, rev4 n⟩

/-- A `mode_code_table_lut` settled on `s` (41_code_tables.md R54). -/
def LutUnit.modeSettledOn (s : Sel) : LutUnit := ⟨s, modeLut s⟩

/-- A `fan_speed_code_table_lut` settled on `s` (41_code_tables.md R55). -/
def LutUnit.fanSettledOn (s : Sel) : LutUnit := ⟨s, fanLut s⟩

/-- A `temperature_encoder` settled on the signed operand `t` (42_temperature_encoder.md R63). -/
def TempUnit.settledOn (t : Byte) : TempUnit := ⟨t, Machine.tempIdx (tempValue t), Machine.tempEnc (tempValue t)⟩

/-- A `checksum_calculator` settled on `m`, `t`, `f` (44_checksum.md R87 to R89). -/
def ChecksumUnit.settledOn (m t f : Byte) : ChecksumUnit :=
  ⟨m, t, f, checksumTotal m t f, checksumDiff (checksumTotal m t f), checksumOf m t f⟩

end Sys2Proof.Machine
end

