-- ==== Sys2Proof/Machine/State.lean ====
section
/-! DEFINITION. The state: the values on every wire the spec names, and what is still to be presented. The block itself
stores nothing (10_state.md R14 to R19): no field is a register, and no operation reads a signal or an output to compute
another value (log entry 1). -/

namespace Sys2Proof.Machine

/-- The values on the wires, and the program. -/
structure State where
  /-- The requests and operands still to be presented, first first: a program is "a sequence of requests presented one
  after another" (30_encoding.md R47). The model's own field (log entry 2). -/
  requests : List Presented
  /-- The infrared_command_encoder: inputs, signals, outputs (10_state.md R20 to R22). -/
  block : Block
  /-- A `bit_reversal_8` by itself. -/
  rev8 : Rev8Unit
  /-- A `bit_reversal_4` by itself. -/
  rev4 : Rev4Unit
  /-- A `mode_code_table_lut` by itself. -/
  modeLut : LutUnit
  /-- A `fan_speed_code_table_lut` by itself. -/
  fanLut : LutUnit
  /-- A `temperature_encoder` by itself. -/
  tempEnc : TempUnit
  /-- A `checksum_calculator` by itself. -/
  checksum : ChecksumUnit
deriving DecidableEq, Repr

/-- There is no fault: "every input, however malformed, produces *some* well-defined output sequence" (60_exceptions.md R94),
and "No behaviour of the block is a `fault` or `stuck`" (93_implementation_defined.md). -/
inductive Fault where
deriving DecidableEq, Repr

/-- Why a step is refused. -/
inductive Refusal where
  /-- Raised by `exec` for an instruction with no meaning yet (no arm does). Safe: nothing is claimed of it. -/
  | notModelled (mnemonic : String)
  /-- Raised by `step` for a presented request with a pin that is not 0 or 1: "a model refuses such a request rather than
  giving it a frame" (60_exceptions.md R98). Safe: nothing is claimed of it. -/
  | undefinedInputBit
  /-- Raised by `step` for something presented with more or fewer pins than its format has (30_encoding.md R38): it is no
  request of this hardware. Safe: nothing is claimed of it (log entry 8). -/
  | wrongPinCount
deriving DecidableEq, Repr

/-- After power-up, settled: "there is no reset value to give" (10_state.md R23), so the inputs and operands hold the 0 of log
entry 3, every signal and output follows them (R23; log entry 4), and nothing is presented. -/
def State.reset : State where
  requests := []
  block := Block.settledOn ⟨0, 0, 0⟩
  rev8 := Rev8Unit.settledOn 0
  rev4 := Rev4Unit.settledOn 0
  modeLut := LutUnit.modeSettledOn 0
  fanLut := LutUnit.fanSettledOn 0
  tempEnc := TempUnit.settledOn 0
  checksum := ChecksumUnit.settledOn 0 0 0

end Sys2Proof.Machine
end

