-- ==== Sys2Proof/Machine/Ops.lean ====
section
/-! DEFINITION. The named operations over the state: driving the block or one sub-block and letting it settle, reading the
frame, and fetching what is presented next. There is no memory (20_memory.md R24), no register (10_state.md R14), and no
exception to take or to return from (60_exceptions.md R94, R101, R102), so no operation for them. -/

namespace Sys2Proof.Machine

/-- Present a request on the block's inputs and let it settle (10_state.md R23): every signal and output becomes the
function of the new inputs alone (R19). -/
def State.driveBlock (i : Inputs) (s : State) : State := { s with block := Block.settledOn i }

/-- Present an operand to the `bit_reversal_8`. -/
def State.driveRev8 (n : Byte) (s : State) : State := { s with rev8 := Rev8Unit.settledOn n }

/-- Present an operand to the `bit_reversal_4`. -/
def State.driveRev4 (n : Nibble) (s : State) : State := { s with rev4 := Rev4Unit.settledOn n }

/-- Present a selector to the `mode_code_table_lut`. -/
def State.driveModeLut (sel : Sel) (s : State) : State := { s with modeLut := LutUnit.modeSettledOn sel }

/-- Present a selector to the `fan_speed_code_table_lut`. -/
def State.driveFanLut (sel : Sel) (s : State) : State := { s with fanLut := LutUnit.fanSettledOn sel }

/-- Present a temperature to the `temperature_encoder`. -/
def State.driveTempEnc (t : Byte) (s : State) : State := { s with tempEnc := TempUnit.settledOn t }

/-- Present three codes to the `checksum_calculator`. -/
def State.driveChecksum (m t f : Byte) (s : State) : State := { s with checksum := ChecksumUnit.settledOn m t f }

/-- The frame on the block's outputs (10_state.md R21). -/
def State.frame (s : State) : List Byte := s.block.outputs.frame

/-- The request on the block's inputs, as presented pins: all of them at 0 or 1. -/
def heldRequest (i : Inputs) : Presented :=
  ⟨.frameAssembler, writePins 14 (reqWord i.modeSel i.fanSel i.tempC).toNat⟩

/-- What is presented next, and the state with it taken off the list. With nothing left to present, the request on the
block's inputs is held there (70_reset_and_hazards.md R113; log entry 2). -/
def State.fetch (s : State) : Presented × State :=
  match s.requests with
  | [] => (heldRequest s.block.inputs, s)
  | p :: rest => (p, { s with requests := rest })

/-- The refusal of what the decoder rejects. -/
def refusalOf : DecodeError → Refusal
  | .wrongPinCount => .wrongPinCount
  | .undefinedBit => .undefinedInputBit

end Sys2Proof.Machine
end

