-- ==== Sys2Proof/Machine/Encode.lean ====
section
/-! DEFINITION. The meanings of the seven ENCODE operations (43_frame_assembler.md R80 to R86): each presents its own
`mode_sel` with the operands on the block's inputs. -/

namespace Sys2Proof.Machine

/-- `ENCODE AUTO, <fan>, <temp>`: `mode_sel = 000` (43_frame_assembler.md R80). -/
def execEncodeAuto (fan : Sel) (temp : Byte) (s : State) : Host.Outcome State Fault Refusal :=
  .next (s.driveBlock ⟨0b000, fan, temp⟩)

/-- `ENCODE COOL, <fan>, <temp>`: `mode_sel = 001` (43_frame_assembler.md R81). -/
def execEncodeCool (fan : Sel) (temp : Byte) (s : State) : Host.Outcome State Fault Refusal :=
  .next (s.driveBlock ⟨0b001, fan, temp⟩)

/-- `ENCODE DRY, <fan>, <temp>`: `mode_sel = 010` (43_frame_assembler.md R82). -/
def execEncodeDry (fan : Sel) (temp : Byte) (s : State) : Host.Outcome State Fault Refusal :=
  .next (s.driveBlock ⟨0b010, fan, temp⟩)

/-- `ENCODE FAN, <fan>, <temp>`: `mode_sel = 011` (43_frame_assembler.md R83). -/
def execEncodeFan (fan : Sel) (temp : Byte) (s : State) : Host.Outcome State Fault Refusal :=
  .next (s.driveBlock ⟨0b011, fan, temp⟩)

/-- `ENCODE HEAT, <fan>, <temp>`: `mode_sel = 100` (43_frame_assembler.md R84). -/
def execEncodeHeat (fan : Sel) (temp : Byte) (s : State) : Host.Outcome State Fault Refusal :=
  .next (s.driveBlock ⟨0b100, fan, temp⟩)

/-- `ENCODE OFF, <fan>, <temp>`: `mode_sel = 101`; the operands are present on the inputs but not consulted
(43_frame_assembler.md R85). -/
def execEncodeOff (fan : Sel) (temp : Byte) (s : State) : Host.Outcome State Fault Refusal :=
  .next (s.driveBlock ⟨0b101, fan, temp⟩)

/-- `ENCODE UNK6, <fan>, <temp>` and `ENCODE UNK7, <fan>, <temp>`: `mode_sel = 11x` (43_frame_assembler.md R86). -/
def execEncodeUnknown (x : BitVec 1) (fan : Sel) (temp : Byte) (s : State) : Host.Outcome State Fault Refusal :=
  .next (s.driveBlock ⟨0b11#2 ++ x, fan, temp⟩)

end Sys2Proof.Machine
end

