-- ==== Sys2Proof/Machine/Units.lean ====
section
/-! DEFINITION. The meanings of the six sub-block operations: each presents its operands to that sub-block alone
(30_encoding.md R38, 92_eei_decisions.md D25). -/

namespace Sys2Proof.Machine

/-- `REV8 n` (40_bit_reversal.md R48). -/
def execRev8 (n : Byte) (s : State) : Host.Outcome State Fault Refusal := .next (s.driveRev8 n)

/-- `REV4 n` (40_bit_reversal.md R50). -/
def execRev4 (n : Nibble) (s : State) : Host.Outcome State Fault Refusal := .next (s.driveRev4 n)

/-- `MODE_LUT s` (41_code_tables.md R54). -/
def execModeLut (sel : Sel) (s : State) : Host.Outcome State Fault Refusal := .next (s.driveModeLut sel)

/-- `FAN_LUT s` (41_code_tables.md R55). -/
def execFanLut (sel : Sel) (s : State) : Host.Outcome State Fault Refusal := .next (s.driveFanLut sel)

/-- `TEMP_ENC t` (42_temperature_encoder.md R63). -/
def execTempEnc (t : Byte) (s : State) : Host.Outcome State Fault Refusal := .next (s.driveTempEnc t)

/-- `CHECKSUM m, t, f` (44_checksum.md R89). -/
def execChecksum (m t f : Byte) (s : State) : Host.Outcome State Fault Refusal := .next (s.driveChecksum m t f)

end Sys2Proof.Machine
end

