-- ==== Sys2Proof/Machine/Dispatch.lean ====
section
/-! DEFINITION. The dispatch: one arm per operation of opcode_table.json. -/

namespace Sys2Proof.Machine

def exec (i : Instr) (s : State) : Host.Outcome State Fault Refusal :=
  match i with
  -- the operation map of 30_encoding.md R44
  | .encodeAuto fan temp => Sys2Proof.Machine.execEncodeAuto fan temp s
  | .encodeCool fan temp => Sys2Proof.Machine.execEncodeCool fan temp s
  | .encodeDry fan temp => Sys2Proof.Machine.execEncodeDry fan temp s
  | .encodeFan fan temp => Sys2Proof.Machine.execEncodeFan fan temp s
  | .encodeHeat fan temp => Sys2Proof.Machine.execEncodeHeat fan temp s
  | .encodeOff fan temp => Sys2Proof.Machine.execEncodeOff fan temp s
  | .encodeUnknown x fan temp => Sys2Proof.Machine.execEncodeUnknown x fan temp s
  -- the six sub-block operations of 30_encoding.md R38
  | .rev8 n => Sys2Proof.Machine.execRev8 n s
  | .rev4 n => Sys2Proof.Machine.execRev4 n s
  | .modeLut sel => Sys2Proof.Machine.execModeLut sel s
  | .fanLut sel => Sys2Proof.Machine.execFanLut sel s
  | .tempEnc t => Sys2Proof.Machine.execTempEnc t s
  | .checksum m t f => Sys2Proof.Machine.execChecksum m t f s

end Sys2Proof.Machine
end

