-- ==== Sys2Proof/Machine/Step.lean ====
section
/-! DEFINITION. One step: what is presented next is put on its pins and settles. Nothing is timed (70_reset_and_hazards.md
R112, R116): a step stands for presenting a request and holding it until the outputs are valid. -/

namespace Sys2Proof.Machine

/-- Fetch what is presented next; perform it, or refuse it by name. -/
def step (s : State) : Host.Outcome State Fault Refusal :=
  match decode s.fetch.1 with
  | .ok i => exec i s.fetch.2
  | .error e => .refused (refusalOf e)

/-- Put a table word in front of what is still to be presented, so that the next step performs it (log entry 2). -/
def State.withFetchWord (s : State) (nbits w : Nat) : State :=
  { s with requests := tablePresented nbits w :: s.requests }

end Sys2Proof.Machine
end

