-- ==== Sys2Proof/Config.lean ====
section
/-! DEFINITION. The parameters the spec leaves OPEN or says are "any" (00_scope.md R9, 30_encoding.md R47). Parameters with a
value of their own (the frame lengths, the off literal, case folding, every constant byte) stand in the file of the sub-block
that uses them, under Machine/. -/

namespace Sys2Proof

/-- `T_PD`, the propagation delay: "an OPEN parameter that the model does not use" (70_reset_and_hazards.md R116). Nothing
reads it; it stands here so that every parameter of 00_scope.md R9 that concerns the block has a name. -/
opaque Config.tPd : Nat

/-- The fan selector of the pseudo-operation `POWER_OFF`, "ENCODE OFF, <any fan>, <any temp>" (30_encoding.md R47).
A free value: nothing constrains it (log entry 10). -/
opaque Config.powerOffFan : Sel

/-- The temperature of the pseudo-operation `POWER_OFF` (30_encoding.md R47). A free value (log entry 10). -/
opaque Config.powerOffTemp : Byte

end Sys2Proof
end

