-- ==== Sys2Proof/Machine/FrontEnd.lean ====
section
/-! DEFINITION. The token front end, a reference function outside the block (41_code_tables.md R58 to R62): tokens to selector
codes, and the document's string-level encoder. A token is its list of characters. -/

namespace Sys2Proof.Machine

/-- A mode or fan name as the document's string, character by character (41_code_tables.md R58). -/
abbrev Token := List Char

/-- `CASE_FOLD` on one character: `a` to `z` to `A` to `Z`, every other character unchanged (41_code_tables.md R58). -/
def upperChar (c : Char) : Char := if 'a' ≤ c ∧ c ≤ 'z' then Char.ofNat (c.toNat - 32) else c

/-- `ascii_upper(x)` (41_code_tables.md R58). -/
def asciiUpper (x : Token) : Token := x.map upperChar

/-- `OFF_LITERAL`: the token `off`, lower case, exact match (00_scope.md R9, 41_code_tables.md R59). -/
def offLiteral : Token := ['o', 'f', 'f']

/-- `classify_mode(token)` (41_code_tables.md R59): the case-sensitive off test first, then the five names folded. -/
def classifyMode (token : Token) : Sel :=
  if token = offLiteral then 0b101
  else if asciiUpper token = ['A', 'U', 'T', 'O'] then 0b000
  else if asciiUpper token = ['C', 'O', 'O', 'L'] then 0b001
  else if asciiUpper token = ['D', 'R', 'Y'] then 0b010
  else if asciiUpper token = ['F', 'A', 'N'] then 0b011
  else if asciiUpper token = ['H', 'E', 'A', 'T'] then 0b100
  else 0b110

/-- `classify_fan(token)` (41_code_tables.md R61). -/
def classifyFan (token : Token) : Sel :=
  if asciiUpper token = ['A', 'U', 'T', 'O'] then 0b000
  else if asciiUpper token = ['H', 'I', 'G', 'H'] then 0b001
  else if asciiUpper token = ['M', 'E', 'D'] then 0b010
  else if asciiUpper token = ['L', 'O', 'W'] then 0b011
  else if asciiUpper token = ['Q', 'U', 'I', 'E', 'T'] then 0b100
  else 0b101

/-- A temperature taken to the port: `temp mod 256` read as signed (41_code_tables.md R62, 30_encoding.md R42). -/
def tempPort (temp : Int) : Byte := BitVec.ofInt 8 (temp % 256)

/-- The request a pair of tokens and a temperature become (41_code_tables.md R62). -/
def tokenInputs (temp : Int) (mode fan : Token) : Inputs := ⟨classifyMode mode, classifyFan fan, tempPort temp⟩

/-- `encode_tokens(temp, mode_token, fan_token)` (41_code_tables.md R62). -/
def encodeTokens (temp : Int) (mode fan : Token) : List Byte := encodeFrame (tokenInputs temp mode fan)

end Sys2Proof.Machine
end

