-- ==== Sys2Proof/Machine/Assembler.lean ====
section
/-! DEFINITION. From the written form of requests (30_encoding.md R47) to the operations. -/

namespace Sys2Proof.Machine

/-- The selector of a written mode (30_encoding.md R40, R47). -/
def modeNameSel : ModeName → Sel
  | .auto => 0b000
  | .cool => 0b001
  | .dry => 0b010
  | .fan => 0b011
  | .heat => 0b100
  | .off => 0b101
  | .unk6 => 0b110
  | .unk7 => 0b111

/-- The selector of a written fan (30_encoding.md R41, R47). -/
def fanNameSel : FanName → Sel
  | .auto => 0b000
  | .high => 0b001
  | .med => 0b010
  | .low => 0b011
  | .quiet => 0b100
  | .unk5 => 0b101
  | .unk6 => 0b110
  | .unk7 => 0b111

/-- Why a written request is no operation. -/
inductive AsmError where
  /-- A number its form does not admit (30_encoding.md R47, 00_scope.md R11; log entry 11). -/
  | numberOutOfRange
deriving DecidableEq, Repr

/-- The operation of a written request whose numbers are in range. `POWER_OFF` becomes `ENCODE OFF` with a fan and a
temperature nothing constrains (30_encoding.md R47; log entry 10). -/
def writtenInstr : Written → Instr
  | .encode mode fan temp => requestInstr (modeNameSel mode) (fanNameSel fan) (tempPort temp)
  | .powerOff => .encodeOff Config.powerOffFan Config.powerOffTemp
  | .rev8 n => .rev8 (BitVec.ofInt 8 n)
  | .rev4 n => .rev4 (BitVec.ofInt 4 n)
  | .modeLut mode => .modeLut (modeNameSel mode)
  | .fanLut fan => .fanLut (fanNameSel fan)
  | .tempEnc temp => .tempEnc (tempPort temp)
  | .checksum m t f => .checksum (BitVec.ofInt 8 m) (BitVec.ofInt 8 t) (BitVec.ofInt 8 f)

/-- The assembler: the operation of a written request, or why there is none. -/
def assembleWritten (w : Written) : Except AsmError Instr :=
  if w.wellFormed then .ok (writtenInstr w) else .error .numberOutOfRange

end Sys2Proof.Machine
end

