-- ==== Sys2Proof/Safety.lean ====
section
/-! DEFINITION. What claims about runs are stated in: a settled state, and a program the block can
be given. -/

namespace Sys2Proof.Machine

/-- Every wire of the block is the function of the block's inputs that the spec gives (10_state.md R23). -/
def Block.Settled (b : Block) : Prop := b = Block.settledOn b.inputs

/-- Every wire, of the block and of each sub-block by itself, is the function of its own operands: "The outputs are at all
times the function of the present inputs" (10_state.md R23). -/
structure State.Settled (s : State) : Prop where
  block : s.block.Settled
  rev8 : s.rev8 = Rev8Unit.settledOn s.rev8.n
  rev4 : s.rev4 = Rev4Unit.settledOn s.rev4.n
  modeLut : s.modeLut = LutUnit.modeSettledOn s.modeLut.s
  fanLut : s.fanLut = LutUnit.fanSettledOn s.fanLut.s
  tempEnc : s.tempEnc = TempUnit.settledOn s.tempEnc.t
  checksum : s.checksum = ChecksumUnit.settledOn s.checksum.m s.checksum.t s.checksum.f

/-- Everything still to be presented is well formed: the right number of pins, all at 0 or 1. -/
def State.Presentable (s : State) : Prop := ∀ p ∈ s.requests, p.wellFormed = true

end Sys2Proof.Machine
end

