-- ==== Sys2Proof/Certificates/Slice0/Obligations.lean ====
section
/-! DEFINITION. The statements for the provers, in the order of OBLIGATIONS.json. A statement about an ENCODE request speaks of
the frame (00_scope.md R13): it gives no output lane at or above `frame_len` a value (43_frame_assembler.md R74). StepKeepsWiresSettled,
NothingDependsOnHistory and HeldRequestChangesNothing equate whole blocks, so also the unused lanes of the power-off frame and the
signals on its branch: there their docstrings name the model's choice (log entries 12 and 7). Where a next state is written
`{ s with block := b }`, everything but the block's own wires is as it was. -/

open Sys2Proof Sys2Proof.Machine

/-! ### Reset, steps and whole-machine rules -/

/-- 10_state.md section 5: after power-up, settled, the wires follow the inputs. That the inputs and operands are 0 there,
and that the wires have settled, is the model's choice (log entries 3 and 4); so are the empty list and the six sub-blocks by
themselves, of which `Settled` speaks too (log entries 2 and 5). -/
def Obligations.ResetWiresFollowInputs : Prop :=
  State.reset.Settled ∧ State.reset.block.inputs = ⟨0, 0, 0⟩ ∧ State.reset.requests = []

/-- Every step keeps a settled state settled. 10_state.md R23 says of the outputs that they are at all times the function of the
present inputs. What `Settled` says beyond that is the model's choice: the six sub-blocks by themselves (log entry 5), the internal
signals on the power-off branch (log entry 7), and lanes 5 to 13 of the power-off frame, which R74 gives no meaning (log entry
12). -/
def Obligations.StepKeepsWiresSettled : Prop :=
  ∀ s t : State, s.Settled → step s = .next t → t.Settled

/-- 30_encoding.md R47: a program is a sequence of requests presented one after another; 70_reset_and_hazards.md R113: a request
is held on the inputs. A step performs the operation that is presented next, off the list; with none left, the operation of the
request on the block's inputs (the list is the model's own, log entry 2). -/
def Obligations.StepPerformsPresentedOperation : Prop :=
  (∀ (s : State) (p : Presented) (rest : List Presented) (i : Instr), s.requests = p :: rest → decode p = .ok i →
    step s = exec i { s with requests := rest }) ∧
  (∀ s : State, s.requests = [] →
    step s = exec (requestInstr s.block.inputs.modeSel s.block.inputs.fanSel s.block.inputs.tempC) s)

/-- 60_exceptions.md R98: a request with a bit that is not 0 or 1 is refused, whatever the rest of it says. -/
def Obligations.UndefinedInputBitIsRefused : Prop :=
  ∀ (s : State) (p : Presented) (rest : List Presented), s.requests = p :: rest → p.rightPinCount = true →
    Level.undefined ∈ p.pins → step s = .refused .undefinedInputBit

/-- Every request gives a frame in every state (60_exceptions.md section 1: nothing stops the block from producing one), and from
any state whose list can be presented, any number of steps runs. Steps are the model's choice, not the spec's: the list, and the
held request once the list is empty (log entry 2). -/
def Obligations.NothingStopsTheBlock : Prop :=
  (∀ (m f : Sel) (c : Byte) (s : State), ∃ t : State, exec (requestInstr m f c) s = .next t ∧
    (t.frame.length = 5 ∨ t.frame.length = 14)) ∧
  (∀ (k : Nat) (s : State), s.Presentable → ∃ t, Sys2Proof.core.run k s = .next t)

/-- A sequence of requests yields a sequence of frames, each the function of its own request alone, whatever the state it starts in
(after 20_memory.md section 4 and 43_frame_assembler.md section 1). That the sequence is a list of which a step takes one entry, so
that `k + 1` steps reach the k-th frame, is the model's choice, not the spec's (log entry 2). -/
def Obligations.FramesOfASequenceOfRequests : Prop :=
  ∀ (reqs : List Inputs) (s : State) (k : Nat) (i : Inputs), s.requests = reqs.map heldRequest → reqs[k]? = some i →
    ∃ t : State, Sys2Proof.core.run (k + 1) s = .next t ∧ t.frame = encodeFrame i

/-- 43_frame_assembler.md R77, 10_state.md R19: what an operation drives depends on the operation alone, not on the state before
it. The model's choices in it: the six sub-blocks by themselves (log entry 5); and `t.block = t'.block` after `ENCODE OFF` equates
the internal signals on the power-off branch (log entry 7) and lanes 5 to 13 (log entry 12), which a claim about the spec must not
read (10_state.md R21, R74). -/
def Obligations.NothingDependsOnHistory : Prop :=
  ∀ (i : Instr) (s s' t t' : State), exec i s = .next t → exec i s' = .next t' →
    (i.unit = .frameAssembler → t.block = t'.block) ∧ (i.unit = .bitReversal8 → t.rev8 = t'.rev8) ∧
    (i.unit = .bitReversal4 → t.rev4 = t'.rev4) ∧ (i.unit = .modeCodeTableLut → t.modeLut = t'.modeLut) ∧
    (i.unit = .fanSpeedCodeTableLut → t.fanLut = t'.fanLut) ∧ (i.unit = .temperatureEncoder → t.tempEnc = t'.tempEnc) ∧
    (i.unit = .checksumCalculator → t.checksum = t'.checksum)

/-- The frame of every operation: it leaves the wires of every sub-block but its own, and what is still to be presented, as they
were (20_memory.md R33, 60_exceptions.md R107; the sub-blocks by themselves are the model's, log entry 5). -/
def Obligations.OperationDrivesItsOwnSubBlockOnly : Prop :=
  ∀ (i : Instr) (s t : State), exec i s = .next t → t.requests = s.requests ∧
    (i.unit ≠ .frameAssembler → t.block = s.block) ∧ (i.unit ≠ .bitReversal8 → t.rev8 = s.rev8) ∧
    (i.unit ≠ .bitReversal4 → t.rev4 = s.rev4) ∧ (i.unit ≠ .modeCodeTableLut → t.modeLut = s.modeLut) ∧
    (i.unit ≠ .fanSpeedCodeTableLut → t.fanLut = s.fanLut) ∧ (i.unit ≠ .temperatureEncoder → t.tempEnc = s.tempEnc) ∧
    (i.unit ≠ .checksumCalculator → t.checksum = s.checksum)

/-- A step takes one entry off the list, and none when the list is empty (log entry 2). -/
def Obligations.StepTakesOneRequest : Prop :=
  ∀ s t : State, step s = .next t → t.requests = s.requests.tail

/-- 20_memory.md R31: the outputs may be read any number of times, which changes nothing. That a step with nothing left to present
settles the held request again is the model's choice (log entry 2; 70_reset_and_hazards.md R113 speaks of the upstream collaborator
only), and the equality of whole states covers the signals and the unused lanes of a held power-off request too (log entries 7 and
12). -/
def Obligations.HeldRequestChangesNothing : Prop :=
  ∀ s : State, s.block.Settled → s.requests = [] → step s = .next s

/-! ### Encoding -/

/-- 30_encoding.md R45: no encoding is illegal. Whatever well-formed pins are presented decode to an operation of that sub-block,
which gives a next state in every state; and the selectors that name no token have the code 0x00. -/
def Obligations.EveryEncodingIsLegal : Prop :=
  (∀ (p : Presented) (s : State), p.wellFormed = true →
    ∃ i t, decode p = .ok i ∧ i.unit = p.unit ∧ exec i s = .next t) ∧
  (∀ m : Sel, 6 ≤ m.toNat → modeLut m = 0x00) ∧ (∀ f : Sel, 5 ≤ f.toNat → fanLut f = 0x00)

/-- The decoder rejects whatever is not well formed: only the right number of pins, all at 0 or 1, is an operation
(30_encoding.md R38, 60_exceptions.md R98; log entry 8). -/
def Obligations.OnlyWellFormedPinsDecode : Prop :=
  ∀ (p : Presented) (i : Instr), decode p = .ok i → p.wellFormed = true

/-- Decoding what the encoder presents gives the operation back, for every operation and every operand. -/
def Obligations.DecodeOfEncode : Prop := ∀ i : Instr, decode (encode i) = .ok i

/-- Every presentation has one meaning, and every meaning one presentation. -/
def Obligations.EncodeOfDecode : Prop :=
  ∀ (p : Presented) (i : Instr), decode p = .ok i → encode i = p

/-- 30_encoding.md R44: the operation map, its match and mask as printed; the operands are `req[10:8]` and `req[7:0]` (R38). The
operation is chosen by `mode_sel` alone; the sub-blocks' formats have no selecting field. -/
def Obligations.OperationMapOfRequestWords : Prop :=
  (∀ req : Req,
    let fan : Sel := req.extractLsb' 8 3
    let temp : Byte := req.extractLsb' 0 8
    (req &&& 0x3800#14 = 0x0000#14 ↔ decodeReq req = .encodeAuto fan temp) ∧
    (req &&& 0x3800#14 = 0x0800#14 ↔ decodeReq req = .encodeCool fan temp) ∧
    (req &&& 0x3800#14 = 0x1000#14 ↔ decodeReq req = .encodeDry fan temp) ∧
    (req &&& 0x3800#14 = 0x1800#14 ↔ decodeReq req = .encodeFan fan temp) ∧
    (req &&& 0x3800#14 = 0x2000#14 ↔ decodeReq req = .encodeHeat fan temp) ∧
    (req &&& 0x3800#14 = 0x2800#14 ↔ decodeReq req = .encodeOff fan temp) ∧
    (req &&& 0x3000#14 = 0x3000#14 ↔ decodeReq req = .encodeUnknown (req.extractLsb' 11 1) fan temp)) ∧
  (∀ (m f f' : Sel) (c c' : Byte), (requestInstr m f c).mnemonic = (requestInstr m f' c').mnemonic) ∧
  (∀ (u : SubBlock) (w w' : Nat), u ≠ .frameAssembler → (decodeWord u w).mnemonic = (decodeWord u w').mnemonic)

/-- 30_encoding.md R39: `req = mode_sel * 2048 + fan_sel * 256 + (temp_c mod 256)`, and the three fields are read back from it. -/
def Obligations.RequestWordPacking : Prop :=
  ∀ (m f : Sel) (c : Byte),
    ((reqWord m f c).toNat : Int) = m.toNat * 2048 + f.toNat * 256 + tempValue c % 256 ∧
    decodeReq (reqWord m f c) = requestInstr m f c

/-- The encoding examples of 30_encoding.md, and words of the sub-block formats written out from R38. -/
def Obligations.EncodingExamples : Prop :=
  decodeTableWord 16 0x0818 = some (.encodeCool 0b000 24) ∧ decodeTableWord 16 0x2110 = some (.encodeHeat 0b001 16) ∧
  decodeTableWord 16 0x2918 = some (.encodeOff 0b001 24) ∧ decodeTableWord 16 0x3018 = some (.encodeUnknown 0 0b000 24) ∧
  decodeTableWord 16 0x00FF = some (.encodeAuto 0b000 0xFF) ∧
  decode ⟨.bitReversal4, [.one, .one, .zero, .zero]⟩ = .ok (.rev4 3) ∧
  decode ⟨.fanSpeedCodeTableLut, [.zero, .zero, .one]⟩ = .ok (.fanLut 0b100) ∧
  decodeTableWord 24 0x80810D = some (.checksum 0x80 0x81 0x0D)

/-- 30_encoding.md R42: `temp_c` is two's complement, in [-128, 127]; only `temp_c[3:0]` reaches a frame, and any width of 4 bits or
more, signed or not, gives the same temperature code. -/
def Obligations.SignedTemperaturePort : Prop :=
  (∀ c : Byte, tempValue c = (c.toNat : Int) - 256 * (c.getLsbD 7).toNat ∧ -128 ≤ tempValue c ∧ tempValue c ≤ 127) ∧
  (∀ (m f : Sel) (c c' : Byte), c.extractLsb' 0 4 = c'.extractLsb' 0 4 → encodeFrame ⟨m, f, c⟩ = encodeFrame ⟨m, f, c'⟩) ∧
  (∀ (w : Nat) (v : BitVec w), 4 ≤ w → tempEnc v.toInt = tempEnc v.toNat ∧
    tempEnc v.toNat = tempEnc (v.extractLsb' 0 4).toNat)

/-! ### The sub-blocks -/

/-- 40_bit_reversal.md R48: `REV8 n` reverses the 8 bits of `n`, after cutting a wider operand to 8 bits; nothing else changes. -/
def Obligations.RevEightReversesTheByte : Prop :=
  (∀ (n : Byte) (s : State), ∃ r : Byte, exec (.rev8 n) s = .next { s with rev8 := ⟨n, r⟩ } ∧
    ∀ i < 8, r.getLsbD i = n.getLsbD (7 - i)) ∧
  (∀ (x : Int), ∀ i < 8, (rev8Of x).getLsbD i = decide (x / 2 ^ (7 - i) % 2 = 1))

/-- 40_bit_reversal.md R49: `REV8` is an involution, so a bijection on bytes; and the document's fixed values. -/
def Obligations.RevEightIsAnInvolution : Prop :=
  (∀ x : Int, 0 ≤ x → x ≤ 255 → ((rev8Of (rev8Of x).toNat).toNat : Int) = x) ∧ Function.Bijective rev8 ∧
  rev8 0x00 = 0x00 ∧ rev8 0xFF = 0xFF ∧ rev8 0x01 = 0x80 ∧ rev8 0x80 = 0x01

/-- 40_bit_reversal.md R50: `REV4 n` reverses the order of 4 bits; nothing else changes. -/
def Obligations.RevFourReversesTheNibble : Prop :=
  ∀ (n : Nibble) (s : State), ∃ r : Nibble, exec (.rev4 n) s = .next { s with rev4 := ⟨n, r⟩ } ∧
    ∀ i < 4, r.getLsbD i = n.getLsbD (3 - i)

/-- 40_bit_reversal.md R51: only the low 4 bits of the operand, of its two's complement if it is negative, enter `REV4`. -/
def Obligations.RevFourReadsLowBitsOnly : Prop :=
  ∀ n : Int, rev4Of n = rev4Of (n % 16) ∧ ∀ i < 4, (rev4Of n).getLsbD i = decide (n / 2 ^ (3 - i) % 2 = 1)

/-- 40_bit_reversal.md R52: `REV4` is an involution on the low 4 bits; and the document's fixed values. -/
def Obligations.RevFourIsAnInvolution : Prop :=
  (∀ x : Int, ((rev4Of ((rev4Of x).toNat &&& 0xF : Nat)).toNat : Int) = x % 16) ∧
  rev4Of 0 = 0 ∧ rev4Of 1 = 8 ∧ rev4Of 8 = 1 ∧ rev4Of 15 = 15 ∧ rev4Of 3 = 12

/-- 41_code_tables.md R54: `MODE_LUT s`, entry by entry; nothing else changes. -/
def Obligations.ModeLutEntries : Prop :=
  ∀ (sel : Sel) (s : State), ∃ c : Byte, exec (.modeLut sel) s = .next { s with modeLut := ⟨sel, c⟩ } ∧
    (sel = 0b000 → c = 0x00) ∧ (sel = 0b001 → c = 0x80) ∧ (sel = 0b010 → c = 0x40) ∧ (sel = 0b011 → c = 0xC0) ∧
    (sel = 0b100 → c = 0x20) ∧ (sel = 0b101 → c = 0x00) ∧ (sel = 0b110 → c = 0x00) ∧ (sel = 0b111 → c = 0x00)

/-- 41_code_tables.md R55: `FAN_LUT s`, entry by entry; nothing else changes. -/
def Obligations.FanLutEntries : Prop :=
  ∀ (sel : Sel) (s : State), ∃ c : Byte, exec (.fanLut sel) s = .next { s with fanLut := ⟨sel, c⟩ } ∧
    (sel = 0b000 → c = 0x00) ∧ (sel = 0b001 → c = 0x80) ∧ (sel = 0b010 → c = 0x40) ∧ (sel = 0b011 → c = 0xC0) ∧
    (sel = 0b100 → c = 0x20) ∧ (sel = 0b101 → c = 0x00) ∧ (sel = 0b110 → c = 0x00) ∧ (sel = 0b111 → c = 0x00)

/-- 41_code_tables.md R57: the bit reversals of the codes, by `REV8` performed on the result of the table. -/
def Obligations.ReversedCodes : Prop :=
  (∀ (sel : Sel) (s : State), ∃ t u : State, exec (.modeLut sel) s = .next t ∧ exec (.rev8 t.modeLut.code) t = .next u ∧
    [0, 1, 2, 3, 4, 0, 0, 0][sel.toNat]? = some u.rev8.r.toNat) ∧
  (∀ (sel : Sel) (s : State), ∃ t u : State, exec (.fanLut sel) s = .next t ∧ exec (.rev8 t.fanLut.code) t = .next u ∧
    [0, 1, 2, 3, 4, 0, 0, 0][sel.toNat]? = some u.rev8.r.toNat)

/-- 42_temperature_encoder.md R63: `TEMP_ENC t`, for every value of the port and with no range check; nothing else changes. -/
def Obligations.TempEncResult : Prop :=
  ∀ (t : Byte) (s : State), ∃ (k : Nibble) (c : Byte), exec (.tempEnc t) s = .next { s with tempEnc := ⟨t, k, c⟩ } ∧
    (k.toNat : Int) = (tempValue t - 16) % 16 ∧ c.toNat = (rev4 k).toNat + 128

/-- 42_temperature_encoder.md R64: for every integer temperature the code is in [128, 143]: bit 7 is 1 and bits 6 to 4 are 0. -/
def Obligations.TempCodeRange : Prop :=
  ∀ t : Int, 128 ≤ (tempEnc t).toNat ∧ (tempEnc t).toNat ≤ 143 ∧ (tempEnc t).getLsbD 7 = true ∧
    (tempEnc t).extractLsb' 4 3 = 0

/-- 42_temperature_encoder.md R65: the code depends on `t mod 16` only; on the port, `temp_idx = temp_c[3:0]` and
`temp_code = {1, 0, 0, 0, temp_c[0], temp_c[1], temp_c[2], temp_c[3]}`. -/
def Obligations.TempCodeWraps : Prop :=
  (∀ t k : Int, ((tempIdx t).toNat : Int) = t % 16 ∧ tempEnc t = tempEnc (t + 16 * k)) ∧
  (∀ c : Byte, tempIdx (tempValue c) = c.extractLsb' 0 4 ∧
    tempEnc (tempValue c) = 0b1000#4 ++ bit c 0 ++ bit c 1 ++ bit c 2 ++ bit c 3)

/-- 42_temperature_encoder.md R67: `REV8(TEMP_ENC t) = 16 * ((t - 16) mod 16) + 1`. -/
def Obligations.ReversedTempCode : Prop :=
  ∀ t : Int, ((rev8 (tempEnc t)).toNat : Int) = 16 * ((t - 16) % 16) + 1

/-- 42_temperature_encoder.md R68: the table of the nominal range, whose row `16 + (t mod 16)` every integer `t` has: the columns
REV4, temp_code and REV8(temp_code). -/
def Obligations.TempCodeTable : Prop :=
  ∀ t : Int,
    [0, 8, 4, 12, 2, 10, 6, 14, 1, 9, 5, 13, 3, 11, 7, 15][(t % 16).toNat]? = some (rev4 (tempIdx t)).toNat ∧
    [128, 136, 132, 140, 130, 138, 134, 142, 129, 137, 133, 141, 131, 139, 135, 143][(t % 16).toNat]? =
      some (tempEnc t).toNat ∧
    [0x01, 0x11, 0x21, 0x31, 0x41, 0x51, 0x61, 0x71, 0x81, 0x91, 0xA1, 0xB1, 0xC1, 0xD1, 0xE1, 0xF1][(t % 16).toNat]? =
      some (rev8 (tempEnc t)).toNat ∧
    tempEnc t = tempEnc (16 + t % 16)

/-- 44_checksum.md R89: `CHECKSUM m, t, f` in its three steps, the sum without wrap and the remainder non-negative; nothing else
changes. -/
def Obligations.ChecksumResult : Prop :=
  ∀ (m t f : Byte) (s : State), ∃ (total : Total) (diff cs : Byte),
    exec (.checksum m t f) s = .next { s with checksum := ⟨m, t, f, total, diff, cs⟩ } ∧
    total.toNat = 32 + (rev8 m).toNat + (rev8 t).toNat + (rev8 f).toNat ∧
    (diff.toNat : Int) = (208 - (total.toNat : Int)) % 256 ∧ cs = rev8 diff

/-- 44_checksum.md R88: `diff` is the non-negative remainder, the low 8 bits of `208 - total` in 10 bits, and the 8-bit
wrapping difference from 176; `208 - total` is negative exactly when `total > 208`. -/
def Obligations.ChecksumDifference : Prop :=
  ∀ m t f : Byte,
    let total := checksumTotal m t f
    ((checksumDiff total).toNat : Int) = (208 - (total.toNat : Int)) % 256 ∧
    checksumDiff total = (208 - total).setWidth 8 ∧
    checksumDiff total = 176 - rev8 m - rev8 t - rev8 f ∧
    (208 - (total.toNat : Int) < 0 ↔ total.toNat > 208)

/-- 44_checksum.md R90: any permutation of the three operands gives the same checksum. -/
def Obligations.ChecksumIsSymmetric : Prop :=
  ∀ m t f : Byte, checksumOf t m f = checksumOf m t f ∧ checksumOf m f t = checksumOf m t f ∧
    checksumOf f t m = checksumOf m t f ∧ checksumOf t f m = checksumOf m t f ∧ checksumOf f m t = checksumOf m t f

/-- 44_checksum.md R91: `REV8(checksum) = diff`, so `(total + REV8(checksum)) mod 256 = 208`. -/
def Obligations.ChecksumRelation : Prop :=
  ∀ m t f : Byte, rev8 (checksumOf m t f) = checksumDiff (checksumTotal m t f) ∧
    ((checksumTotal m t f).toNat + (rev8 (checksumOf m t f)).toNat) % 256 = 208

/-- 44_checksum.md R92: the closed form inside the block, for every command request; and when the difference is negative. -/
def Obligations.ChecksumClosedForm : Prop :=
  ∀ (m f : Sel) (c : Byte) (s t : State), m ≠ 0b101 → exec (requestInstr m f c) s = .next t →
    ∃ k rm rf : Nat, (k : Int) = tempValue c % 16 ∧ rm = (rev8 (modeLut m)).toNat ∧ rf = (rev8 (fanLut f)).toNat ∧
      rm ≤ 4 ∧ rf ≤ 4 ∧ t.block.signals.total.toNat = 33 + 16 * k + rm + rf ∧
      33 ≤ t.block.signals.total.toNat ∧ t.block.signals.total.toNat ≤ 281 ∧
      (t.block.signals.diff.toNat : Int) = (175 - 16 * (k : Int) - rm - rf) % 256 ∧
      t.block.signals.checksum = rev8 t.block.signals.diff ∧
      (208 - (t.block.signals.total.toNat : Int) < 0 ↔ 11 ≤ k)

/-! ### The ENCODE operations -/

/-- 43_frame_assembler.md R80: `ENCODE AUTO` and its encoding, corner cases and example. -/
def Obligations.EncodeAutoFrame : Prop :=
  (∀ (fan : Sel) (temp : Byte) (s : State), ∃ b : Block, exec (.encodeAuto fan temp) s = .next { s with block := b } ∧
    b.inputs = ⟨0b000, fan, temp⟩ ∧ b.outputs.frameLen = 14 ∧
    b.outputs.frame = [0, 8, 8, 127, 144, 12, tempEnc (tempValue temp), 0x00, fanLut fan, 0, 0, 0, 4,
      checksumOf 0x00 (tempEnc (tempValue temp)) (fanLut fan)]) ∧
  (∀ (fan : Sel) (temp : Byte), decodeReq (reqWord 0b000 fan temp) = .encodeAuto fan temp) ∧
  (∀ (x : BitVec 1) (fan : Sel) (temp : Byte) (s s' : State), ∃ t t' : State, exec (.encodeAuto fan temp) s = .next t ∧
    exec (.encodeUnknown x fan temp) s' = .next t' ∧ t.frame = t'.frame) ∧
  (∀ s : State, ∃ t : State, exec (.encodeAuto 0b000 24) s = .next t ∧ t.block.signals.total = 161 ∧ t.block.signals.diff = 47 ∧
    t.frame = [0, 8, 8, 127, 144, 12, 129, 0, 0, 0, 0, 0, 4, 244])

/-- 43_frame_assembler.md R81: `ENCODE COOL` and its encoding, corner cases and example. -/
def Obligations.EncodeCoolFrame : Prop :=
  (∀ (fan : Sel) (temp : Byte) (s : State), ∃ b : Block, exec (.encodeCool fan temp) s = .next { s with block := b } ∧
    b.inputs = ⟨0b001, fan, temp⟩ ∧ b.outputs.frameLen = 14 ∧
    b.outputs.frame = [0, 8, 8, 127, 144, 12, tempEnc (tempValue temp), 0x80, fanLut fan, 0, 0, 0, 4,
      checksumOf 0x80 (tempEnc (tempValue temp)) (fanLut fan)]) ∧
  (∀ (fan : Sel) (temp : Byte), decodeReq (reqWord 0b001 fan temp) = .encodeCool fan temp) ∧
  rev8 0x80 = 1 ∧
  (∀ s : State, ∃ t : State, exec (.encodeCool 0b000 24) s = .next t ∧ t.block.signals.total = 162 ∧ t.block.signals.diff = 46 ∧
    t.frame = [0, 8, 8, 127, 144, 12, 129, 128, 0, 0, 0, 0, 4, 116])

/-- 43_frame_assembler.md R82: `ENCODE DRY` and its encoding, corner cases and example. -/
def Obligations.EncodeDryFrame : Prop :=
  (∀ (fan : Sel) (temp : Byte) (s : State), ∃ b : Block, exec (.encodeDry fan temp) s = .next { s with block := b } ∧
    b.inputs = ⟨0b010, fan, temp⟩ ∧ b.outputs.frameLen = 14 ∧
    b.outputs.frame = [0, 8, 8, 127, 144, 12, tempEnc (tempValue temp), 0x40, fanLut fan, 0, 0, 0, 4,
      checksumOf 0x40 (tempEnc (tempValue temp)) (fanLut fan)]) ∧
  (∀ (fan : Sel) (temp : Byte), decodeReq (reqWord 0b010 fan temp) = .encodeDry fan temp) ∧
  rev8 0x40 = 2 ∧
  (∀ s : State, ∃ t : State, exec (.encodeDry 0b010 25) s = .next t ∧ t.block.signals.total = 181 ∧ t.block.signals.diff = 27 ∧
    t.frame = [0, 8, 8, 127, 144, 12, 137, 64, 64, 0, 0, 0, 4, 216])

/-- 43_frame_assembler.md R83: `ENCODE FAN` and its encoding, corner cases and example. -/
def Obligations.EncodeFanFrame : Prop :=
  (∀ (fan : Sel) (temp : Byte) (s : State), ∃ b : Block, exec (.encodeFan fan temp) s = .next { s with block := b } ∧
    b.inputs = ⟨0b011, fan, temp⟩ ∧ b.outputs.frameLen = 14 ∧
    b.outputs.frame = [0, 8, 8, 127, 144, 12, tempEnc (tempValue temp), 0xC0, fanLut fan, 0, 0, 0, 4,
      checksumOf 0xC0 (tempEnc (tempValue temp)) (fanLut fan)]) ∧
  (∀ (fan : Sel) (temp : Byte), decodeReq (reqWord 0b011 fan temp) = .encodeFan fan temp) ∧
  (∀ s : State, ∃ t : State, exec (.encodeFan 0b011 20) s = .next t ∧ t.block.signals.total = 103 ∧ t.block.signals.diff = 105 ∧
    t.frame = [0, 8, 8, 127, 144, 12, 130, 192, 192, 0, 0, 0, 4, 150])

/-- 43_frame_assembler.md R84: `ENCODE HEAT` and its encoding, corner cases and example. -/
def Obligations.EncodeHeatFrame : Prop :=
  (∀ (fan : Sel) (temp : Byte) (s : State), ∃ b : Block, exec (.encodeHeat fan temp) s = .next { s with block := b } ∧
    b.inputs = ⟨0b100, fan, temp⟩ ∧ b.outputs.frameLen = 14 ∧
    b.outputs.frame = [0, 8, 8, 127, 144, 12, tempEnc (tempValue temp), 0x20, fanLut fan, 0, 0, 0, 4,
      checksumOf 0x20 (tempEnc (tempValue temp)) (fanLut fan)]) ∧
  (∀ (fan : Sel) (temp : Byte), decodeReq (reqWord 0b100 fan temp) = .encodeHeat fan temp) ∧
  (∀ s : State, ∃ t : State, exec (.encodeHeat 0b100 31) s = .next t ∧ t.block.signals.total = 281 ∧
    t.block.signals.diff = 183 ∧ t.block.signals.checksum = 237) ∧
  (∀ (m f : Sel) (c : Byte) (s : State), m ≠ 0b101 → ∃ t : State, exec (requestInstr m f c) s = .next t ∧
    t.block.signals.total.toNat ≤ 281) ∧
  (∀ s : State, ∃ t : State, exec (.encodeHeat 0b001 16) s = .next t ∧ t.block.signals.total = 38 ∧ t.block.signals.diff = 170 ∧
    t.frame = [0, 8, 8, 127, 144, 12, 128, 32, 128, 0, 0, 0, 4, 85])

/-- 43_frame_assembler.md R70: `ENCODE OFF` gives the constant power-off frame for every fan and temperature. -/
def Obligations.EncodeOffFrame : Prop :=
  ∀ (fan : Sel) (temp : Byte) (s : State), ∃ b : Block, exec (.encodeOff fan temp) s = .next { s with block := b } ∧
    b.inputs = ⟨0b101, fan, temp⟩ ∧ b.outputs.frameLen = 5 ∧ b.outputs.frame = [0, 8, 8, 64, 191]

/-- 43_frame_assembler.md R86: an unrecognized mode, `110` or `111`, gives a command frame with the mode code 0x00, the one of
`ENCODE AUTO` with the same fan and temperature; its encoding, corner cases and example. -/
def Obligations.EncodeUnknownFrame : Prop :=
  (∀ (x : BitVec 1) (fan : Sel) (temp : Byte) (s : State), ∃ b a : Block,
    exec (.encodeUnknown x fan temp) s = .next { s with block := b } ∧ b.inputs = ⟨0b11#2 ++ x, fan, temp⟩ ∧
    b.outputs.frameLen = 14 ∧
    b.outputs.frame = [0, 8, 8, 127, 144, 12, tempEnc (tempValue temp), 0x00, fanLut fan, 0, 0, 0, 4,
      checksumOf 0x00 (tempEnc (tempValue temp)) (fanLut fan)] ∧
    exec (.encodeAuto fan temp) s = .next { s with block := a } ∧ b.outputs = a.outputs) ∧
  (∀ (x : BitVec 1) (fan : Sel) (temp : Byte), decodeReq (reqWord (0b11#2 ++ x) fan temp) = .encodeUnknown x fan temp) ∧
  (∀ token : Token, token ∈ ([['O', 'F', 'F'], ['O', 'f', 'f'], ['B', 'O', 'G', 'U', 'S']] : List Token) →
    requestInstr (classifyMode token) 0b000 24 = .encodeUnknown 0 0b000 24) ∧
  (∀ s : State, ∃ t : State, exec (.encodeUnknown 0 0b000 24) s = .next t ∧
    t.frame = [0, 8, 8, 127, 144, 12, 129, 0, 0, 0, 0, 0, 4, 244])

/-- 43_frame_assembler.md R71: the layout of every command frame; the temperature code precedes the mode code, and the checksum is
that of the codes. -/
def Obligations.CommandFrameLayout : Prop :=
  ∀ (m f : Sel) (c : Byte) (s : State), m ≠ 0b101 → ∃ t : State, exec (requestInstr m f c) s = .next t ∧
    t.block.outputs.frameLen = 14 ∧
    t.frame = [0, 8, 8, 127, 144, 12, tempEnc (tempValue c), modeLut m, fanLut f, 0, 0, 0, 4,
      checksumOf (modeLut m) (tempEnc (tempValue c)) (fanLut f)]

/-- The eight internal signals are the functions of the request that 10_state.md R22 names, on both branches (log entry 7). -/
def Obligations.SignalsFollowTheInputs : Prop :=
  ∀ (m f : Sel) (c : Byte) (s : State), ∃ b : Block, exec (requestInstr m f c) s = .next { s with block := b } ∧
    b.inputs = ⟨m, f, c⟩ ∧ (b.signals.isOff = true ↔ m = 0b101) ∧ b.signals.modeCode = modeLut m ∧
    b.signals.fanCode = fanLut f ∧ b.signals.tempCode = tempEnc (tempValue c) ∧
    (b.signals.tempIdx.toNat : Int) = tempValue c % 16 ∧
    b.signals.total = checksumTotal b.signals.modeCode b.signals.tempCode b.signals.fanCode ∧
    b.signals.diff = checksumDiff b.signals.total ∧ b.signals.checksum = rev8 b.signals.diff

/-- 43_frame_assembler.md R76: 14 bytes when `mode_sel != 101`, 5 when it is `101`, and no other length. -/
def Obligations.FrameLengths : Prop :=
  ∀ (m f : Sel) (c : Byte) (s : State), ∃ t : State, exec (requestInstr m f c) s = .next t ∧
    t.frame.length = t.block.outputs.frameLen.toNat ∧
    (m ≠ 0b101 → t.block.outputs.frameLen = 14) ∧ (m = 0b101 → t.block.outputs.frameLen = 5)

/-- 43_frame_assembler.md R78: which positions of a command frame are constant, and the ranges of the others. -/
def Obligations.CommandFramePositions : Prop :=
  ∀ (m f : Sel) (c : Byte) (s : State), m ≠ 0b101 → ∃ (t : State) (p6 p7 p8 p13 : Byte),
    exec (requestInstr m f c) s = .next t ∧ t.frame = [0, 8, 8, 127, 144, 12, p6, p7, p8, 0, 0, 0, 4, p13] ∧
    0x80 ≤ p6.toNat ∧ p6.toNat ≤ 0x8F ∧ p7 ∈ ([0x00, 0x20, 0x40, 0x80, 0xC0] : List Byte) ∧
    p8 ∈ ([0x00, 0x20, 0x40, 0x80, 0xC0] : List Byte)

/-- 43_frame_assembler.md R79: the bit reversals of positions 5 to 13 of every command frame add to a multiple of 256. -/
def Obligations.ReversedFrameSumIsZero : Prop :=
  ∀ (m f : Sel) (c : Byte) (s : State), m ≠ 0b101 → ∃ t : State, exec (requestInstr m f c) s = .next t ∧
    ((t.frame.drop 5).map fun b => (rev8 b).toNat).length = 9 ∧
    ((t.frame.drop 5).map fun b => (rev8 b).toNat).sum % 256 = 0

/-- 60_exceptions.md R96: the outputs do not tell an unrecognized mode from AUTO, an unrecognized fan from fan AUTO, or a
temperature `t` from `t + 16`. -/
def Obligations.AnomaliesAreIndistinguishable : Prop :=
  ∀ (m f : Sel) (c : Byte) (s s' : State),
    (6 ≤ m.toNat → ∃ t t' : State, exec (requestInstr m f c) s = .next t ∧ exec (requestInstr 0b000 f c) s' = .next t' ∧
      t.block.outputs.frameLen = t'.block.outputs.frameLen ∧ t.frame = t'.frame) ∧
    (5 ≤ f.toNat → ∃ t t' : State, exec (requestInstr m f c) s = .next t ∧ exec (requestInstr m 0b000 c) s' = .next t' ∧
      t.block.outputs.frameLen = t'.block.outputs.frameLen ∧ t.frame = t'.frame) ∧
    (∃ t t' : State, exec (requestInstr m f c) s = .next t ∧ exec (requestInstr m f (c + 16)) s' = .next t' ∧
      t.block.outputs.frameLen = t'.block.outputs.frameLen ∧ t.frame = t'.frame)

/-- 60_exceptions.md R100: power-off takes precedence over whatever the other fields hold; on the command branch each field has its
own position of the frame, which no other field changes. -/
def Obligations.PowerOffPrecedence : Prop :=
  (∀ (f : Sel) (c : Byte) (s : State), ∃ t : State, exec (requestInstr 0b101 f c) s = .next t ∧
    t.frame = [0, 8, 8, 64, 191]) ∧
  (∀ (m m' f f' : Sel) (c c' : Byte) (s s' : State), m ≠ 0b101 → m' ≠ 0b101 → ∃ t t' : State,
    exec (requestInstr m f c) s = .next t ∧ exec (requestInstr m' f' c') s' = .next t' ∧
    (c = c' → t.frame[6]? = t'.frame[6]?) ∧ (m = m' → t.frame[7]? = t'.frame[7]?) ∧ (f = f' → t.frame[8]? = t'.frame[8]?))

/-- 20_memory.md R30: lane `i` occupies `frame_bus[8*i + 7 : 8*i]`. -/
def Obligations.FrameBusPacking : Prop :=
  ∀ (o : Outputs) (i : Fin 14), o.frameBus.extractLsb' (8 * i) 8 = o.frameByte[i]

/-! ### The token front end and the written form -/

/-- 41_code_tables.md R59: which tokens `classify_mode` gives which selector; `111` is never produced. And R58, in whose terms it
says so: `ascii_upper` takes `a` to `z` to the character 32 below and leaves every other as it is, character by character, with
nothing trimmed. -/
def Obligations.ClassifyModeTokens : Prop :=
  (∀ c : Char, ('a' ≤ c ∧ c ≤ 'z' → (upperChar c).toNat + 32 = c.toNat) ∧ (¬('a' ≤ c ∧ c ≤ 'z') → upperChar c = c)) ∧
  (∀ x : Token, asciiUpper x = x.map upperChar) ∧
  (∀ token : Token,
    (classifyMode token = 0b101 ↔ token = ['o', 'f', 'f']) ∧
    (classifyMode token = 0b000 ↔ asciiUpper token = ['A', 'U', 'T', 'O']) ∧
    (classifyMode token = 0b001 ↔ asciiUpper token = ['C', 'O', 'O', 'L']) ∧
    (classifyMode token = 0b010 ↔ asciiUpper token = ['D', 'R', 'Y']) ∧
    (classifyMode token = 0b011 ↔ asciiUpper token = ['F', 'A', 'N']) ∧
    (classifyMode token = 0b100 ↔ asciiUpper token = ['H', 'E', 'A', 'T']) ∧
    classifyMode token ≠ 0b111)

/-- 41_code_tables.md R60: off spelled in another case is an unrecognized mode and yields a command frame with mode code 0x00. -/
def Obligations.OffInAnotherCaseIsNotOff : Prop :=
  ∀ (token fan : Token) (temp : Int), asciiUpper token = ['O', 'F', 'F'] → token ≠ ['o', 'f', 'f'] →
    classifyMode token = 0b110 ∧
    encodeTokens temp token fan = [0, 8, 8, 127, 144, 12, tempEnc temp, 0x00, fanLut (classifyFan fan), 0, 0, 0, 4,
      checksumOf 0x00 (tempEnc temp) (fanLut (classifyFan fan))]

/-- 41_code_tables.md R61: which tokens `classify_fan` gives which selector; `110` and `111` are never produced, and no test is
case-sensitive. And R58, in whose terms it says so, as in ClassifyModeTokens. -/
def Obligations.ClassifyFanTokens : Prop :=
  (∀ c : Char, ('a' ≤ c ∧ c ≤ 'z' → (upperChar c).toNat + 32 = c.toNat) ∧ (¬('a' ≤ c ∧ c ≤ 'z') → upperChar c = c)) ∧
  (∀ x : Token, asciiUpper x = x.map upperChar) ∧
  (∀ token : Token,
    (classifyFan token = 0b000 ↔ asciiUpper token = ['A', 'U', 'T', 'O']) ∧
    (classifyFan token = 0b001 ↔ asciiUpper token = ['H', 'I', 'G', 'H']) ∧
    (classifyFan token = 0b010 ↔ asciiUpper token = ['M', 'E', 'D']) ∧
    (classifyFan token = 0b011 ↔ asciiUpper token = ['L', 'O', 'W']) ∧
    (classifyFan token = 0b100 ↔ asciiUpper token = ['Q', 'U', 'I', 'E', 'T']) ∧
    classifyFan token ≠ 0b110 ∧ classifyFan token ≠ 0b111)

/-- 41_code_tables.md R62: the string-level encoder is the block's function on the classified tokens, with the temperature taken to
the port, which gives the frame of the unbounded integer; and the document's "BOGUS" example. -/
def Obligations.TokenEncoderIsTheBlock : Prop :=
  (∀ (temp : Int) (mode fan : Token) (s : State), ∃ t : State,
    exec (requestInstr (classifyMode mode) (classifyFan fan) (BitVec.ofInt 8 temp)) s = .next t ∧
    t.frame = encodeTokens temp mode fan) ∧
  (∀ temp : Int, -128 ≤ temp → temp ≤ 127 → tempValue (BitVec.ofInt 8 temp) = temp) ∧
  (∀ (temp : Int) (mode fan : Token), mode ≠ ['o', 'f', 'f'] →
    encodeTokens temp mode fan =
      [0, 8, 8, 127, 144, 12, tempEnc temp, modeLut (classifyMode mode), fanLut (classifyFan fan), 0, 0, 0, 4,
        checksumOf (modeLut (classifyMode mode)) (tempEnc temp) (fanLut (classifyFan fan))]) ∧
  classifyMode ['B', 'O', 'G', 'U', 'S'] = 0b110 ∧ modeLut 0b110 = modeLut 0b000 ∧ modeLut 0b000 = 0x00

/-- 30_encoding.md R47: `POWER_OFF` stands for `ENCODE OFF` with any fan and any temperature. It assembles, and its frame is the
power-off frame, whatever its free fan and temperature are (log entry 10). -/
def Obligations.PowerOffAssembles : Prop :=
  ∀ s : State, ∃ (i : Instr) (t : State) (f : Sel) (c : Byte), assembleWritten .powerOff = .ok i ∧ i = .encodeOff f c ∧
    exec i s = .next t ∧ t.frame = [0, 8, 8, 64, 191]

/-- 30_encoding.md R47, R39: a written request with its temperature in [-128, 127] assembles to the request word of its selectors
and temperature. The selectors are those of R40 and R41, name by name. That a temperature outside the range is refused is the
model's choice, not the spec's word (log entry 11). -/
def Obligations.WrittenRequestsAssemble : Prop :=
  (modeNameSel .auto = 0b000 ∧ modeNameSel .cool = 0b001 ∧ modeNameSel .dry = 0b010 ∧ modeNameSel .fan = 0b011 ∧
    modeNameSel .heat = 0b100 ∧ modeNameSel .off = 0b101 ∧ modeNameSel .unk6 = 0b110 ∧ modeNameSel .unk7 = 0b111) ∧
  (fanNameSel .auto = 0b000 ∧ fanNameSel .high = 0b001 ∧ fanNameSel .med = 0b010 ∧ fanNameSel .low = 0b011 ∧
    fanNameSel .quiet = 0b100 ∧ fanNameSel .unk5 = 0b101 ∧ fanNameSel .unk6 = 0b110 ∧ fanNameSel .unk7 = 0b111) ∧
  (∀ (mode : ModeName) (fan : FanName) (temp : Int),
    (-128 ≤ temp → temp ≤ 127 → ∃ i : Instr, assembleWritten (.encode mode fan temp) = .ok i ∧
      (encodeWord i : Int) = (modeNameSel mode).toNat * 2048 + (fanNameSel fan).toNat * 256 + temp % 256) ∧
    (temp < -128 ∨ 127 < temp → assembleWritten (.encode mode fan temp) = .error .numberOutOfRange))

/-! ### Progress, step by step -/

/-- From every state whose list can be presented a step answers a next state, whose list can be presented: no run gets stuck. The
list, and the held request once it is empty, are the model's choice (log entry 2); that nothing well formed is refused and nothing
faults is 60_exceptions.md section 1 and 30_encoding.md section 4. -/
def Obligations.StepKeepsProgramPresentable : Prop :=
  ∀ s : State, s.Presentable → ∃ t : State, step s = .next t ∧ t.Presentable
end

