-- ==== Sys2Proof/Laws/Datapath.lean ====
section
/-! SUPPORT. One specification lemma per sub-block function: what its result is, in numbers or bits. -/

namespace Sys2Proof.Machine

/-! ### bit_reversal_8 and bit_reversal_4 -/

theorem rev8_getLsbD (n : Byte) {i : Nat} (h : i < 8) : (rev8 n).getLsbD i = n.getLsbD (7 - i) := by
  obtain rfl | rfl | rfl | rfl | rfl | rfl | rfl | rfl : i = 0 ∨ i = 1 ∨ i = 2 ∨ i = 3 ∨ i = 4 ∨ i = 5 ∨ i = 6 ∨ i = 7 := by
    omega
  all_goals simp only [rev8, bit, BitVec.getLsbD_append, BitVec.getLsbD_extractLsb']; simp

theorem rev8_rev8 (n : Byte) : rev8 (rev8 n) = n := by
  apply BitVec.eq_of_getLsbD_eq
  intro i h
  rw [rev8_getLsbD _ h, rev8_getLsbD _ (by omega), show 7 - (7 - i) = i by omega]

theorem rev4_getLsbD (n : Nibble) {i : Nat} (h : i < 4) : (rev4 n).getLsbD i = n.getLsbD (3 - i) := by
  have : ∀ n : Nibble, ∀ i < 4, (rev4 n).getLsbD i = n.getLsbD (3 - i) := by decide
  exact this n i h

theorem rev4_rev4 : ∀ n : Nibble, rev4 (rev4 n) = n := by decide

/-- The loop reads only the low `k` bits of its operand (40_bit_reversal.md R51). -/
theorem rev4Loop_mod (k acc : Nat) (n : Int) : rev4Loop k acc n = rev4Loop k acc (n % 2 ^ k) := by
  induction k generalizing acc n with
  | zero => rfl
  | succ k ih =>
    have e : n % 2 ^ (k + 1) / 2 = n / 2 % 2 ^ k := by
      have q : n / (2 * 2 ^ k) = n / 2 / 2 ^ k := (Int.ediv_ediv_of_nonneg (by decide)).symm
      rw [pow_succ', Int.emod_def, Int.emod_def, q, mul_assoc]
      omega
    have d : n % 2 ^ (k + 1) % 2 = n % 2 := Int.emod_emod_of_dvd n (dvd_pow_self 2 (by omega))
    rw [rev4Loop, rev4Loop, ih, d, e]

theorem rev4Of_mod (n : Int) : rev4Of n = rev4Of (n % 16) := by
  rw [rev4Of, rev4Loop_mod, rev4Of]; rfl

/-- `REV4` of any integer is `REV4` of its low 4 bits. -/
theorem rev4Of_eq_rev4 (n : Int) : rev4Of n = rev4 (BitVec.ofInt 4 n) := by
  rw [rev4Of_mod, rev4, BitVec.toNat_ofInt]; congr 1; omega

/-! ### temperature_encoder -/

theorem tempValue_eq_toInt : ∀ c : Byte, tempValue c = c.toInt := by
  intro c
  rw [tempValue, BitVec.toInt_eq_msb_cond, BitVec.msb_eq_getLsbD_last]
  simp only [Nat.reduceSub, Nat.reducePow]
  split <;> simp

theorem tempValue_emod (c : Byte) : tempValue c % 256 = c.toNat := by
  have := c.isLt
  rw [tempValue]; split <;> omega

theorem tempIdx_toNat (t : Int) : ((tempIdx t).toNat : Int) = (t - 16) % 16 := by
  rw [tempIdx, BitVec.toNat_ofInt]; omega

theorem tempIdx_eq (t : Int) : tempIdx t = BitVec.ofInt 4 t := by
  apply BitVec.eq_of_toNat_eq
  have := tempIdx_toNat t
  rw [BitVec.toNat_ofInt]; omega

theorem tempEnc_eq (t : Int) : tempEnc t = 0b1000#4 ++ rev4 (tempIdx t) := by
  have : ∀ k : Nibble, (k &&& 0xF).setWidth 8 + 128 = 0b1000#4 ++ k := by decide
  exact this _

/-- Temperatures equal mod 16 have the same code (42_temperature_encoder.md R65). -/
theorem tempEnc_congr {a b : Int} (h : a % 16 = b % 16) : tempEnc a = tempEnc b := by
  have : tempIdx a = tempIdx b := by
    apply BitVec.eq_of_toNat_eq
    have := tempIdx_toNat a; have := tempIdx_toNat b; omega
  rw [tempEnc_eq, tempEnc_eq, this]

theorem tempEnc_toNat (t : Int) : (tempEnc t).toNat = 128 + (rev4 (tempIdx t)).toNat := by
  have : ∀ k : Nibble, (0b1000#4 ++ k).toNat = 128 + k.toNat := by decide
  rw [tempEnc_eq, this]

theorem rev8_tempEnc (t : Int) : rev8 (tempEnc t) = tempIdx t ++ 0b0001#4 := by
  have : ∀ k : Nibble, rev8 (0b1000#4 ++ rev4 k) = k ++ 0b0001#4 := by decide
  rw [tempEnc_eq, this]

/-! ### checksum_calculator -/

theorem zext10_toNat (v : Byte) : (zext10 v).toNat = v.toNat := by
  have := v.isLt
  rw [zext10, BitVec.toNat_setWidth]; omega

theorem checksumTotal_toNat (m t f : Byte) :
    (checksumTotal m t f).toNat = 32 + (rev8 m).toNat + (rev8 t).toNat + (rev8 f).toNat := by
  have := (rev8 m).isLt; have := (rev8 t).isLt; have := (rev8 f).isLt
  simp only [checksumTotal, BitVec.toNat_add, zext10_toNat, show (32 : Total).toNat = 32 from rfl]; omega

theorem checksumDiff_toNat (total : Total) : ((checksumDiff total).toNat : Int) = (208 - (total.toNat : Int)) % 256 := by
  rw [checksumDiff, BitVec.toNat_ofInt]; omega

theorem rev8_checksumOf (m t f : Byte) : rev8 (checksumOf m t f) = checksumDiff (checksumTotal m t f) := rev8_rev8 _

/-! ### The code tables -/

theorem modeLut_values : modeLut 0 = 0x00 ∧ modeLut 1 = 0x80 ∧ modeLut 2 = 0x40 ∧ modeLut 3 = 0xC0 ∧
    modeLut 4 = 0x20 ∧ modeLut 5 = 0x00 ∧ modeLut 6 = 0x00 ∧ modeLut 7 = 0x00 := by decide

theorem fanLut_values : fanLut 0 = 0x00 ∧ fanLut 1 = 0x80 ∧ fanLut 2 = 0x40 ∧ fanLut 3 = 0xC0 ∧
    fanLut 4 = 0x20 ∧ fanLut 5 = 0x00 ∧ fanLut 6 = 0x00 ∧ fanLut 7 = 0x00 := by decide

/-! ### frame_assembler -/

theorem isOff_iff (m : Sel) : isOff m = true ↔ m = 5 := by simp [isOff]

theorem encodeFrame_off {i : Inputs} (h : i.modeSel = 5) : encodeFrame i = offFrame := by
  simp [encodeFrame, assemble, signalsOf, isOff, h]

theorem encodeFrame_command {i : Inputs} (h : i.modeSel ≠ 5) :
    encodeFrame i = commandFrame (tempEnc (tempValue i.tempC)) (modeLut i.modeSel) (fanLut i.fanSel)
      (checksumOf (modeLut i.modeSel) (tempEnc (tempValue i.tempC)) (fanLut i.fanSel)) := by
  have : isOff i.modeSel = false := by simpa [isOff] using h
  simp [encodeFrame, assemble, signalsOf, this]

theorem commandFrame_eq (t m f c : Byte) :
    commandFrame t m f c = [0, 8, 8, 127, 144, 12, t, m, f, 0, 0, 0, 4, c] := rfl

theorem encodeFrame_length (i : Inputs) : (encodeFrame i).length = if i.modeSel = 5 then 5 else 14 := by
  split
  · rw [encodeFrame_off ‹_›]; rfl
  · rw [encodeFrame_command ‹_›]; rfl

/-- A frame of at most 14 bytes reads back from the output lanes as it was. -/
theorem outputsOf_frame {frame : List Byte} (h : frame.length ≤ 14) : (outputsOf frame).frame = frame := by
  have len : (frameLenOf frame).toNat = frame.length := by
    rw [frameLenOf, BitVec.toNat_ofNat]; omega
  rw [Outputs.frame, outputsOf, len]
  apply List.ext_getElem
  · simp; omega
  · intro k h₁ h₂
    simp [List.getD_eq_getElem?_getD, List.getElem?_eq_getElem h₂]

/-- The block settled on inputs shows their frame, and its length. -/
theorem settledOn_frame (i : Inputs) : (Block.settledOn i).outputs.frame = encodeFrame i :=
  outputsOf_frame (by rw [encodeFrame_length]; split <;> omega)

theorem settledOn_frameLen (i : Inputs) :
    (Block.settledOn i).outputs.frameLen = if i.modeSel = 5 then 5 else 14 := by
  show frameLenOf (encodeFrame i) = _
  rw [frameLenOf, encodeFrame_length]; split <;> rfl

/-- Lanes at or above the frame's length are driven 0x00 (43_frame_assembler.md R74). -/
theorem outputsOf_unused {frame : List Byte} {k : Nat} (h : k < 14) (u : frame.length ≤ k) :
    (outputsOf frame).frameByte[k] = 0 := by
  simp [outputsOf, List.getD_eq_getElem?_getD, u]

/-! ### frame_bus -/

/-- Byte `k` of packed bytes. -/
theorem packBytes_get (bs : List Byte) (k : Nat) : packBytes bs / 256 ^ k % 256 = (bs.getD k 0).toNat := by
  induction bs generalizing k with
  | nil => simp [packBytes]
  | cons b rest ih =>
    have := b.isLt
    cases k with
    | zero => simp [packBytes]; omega
    | succ k =>
      rw [packBytes, pow_succ', ← Nat.div_div_eq_div_mul, show (b.toNat + 256 * packBytes rest) / 256 = packBytes rest by omega, ih]
      rfl

theorem packBytes_lt (bs : List Byte) : packBytes bs < 256 ^ bs.length := by
  induction bs with
  | nil => simp [packBytes]
  | cons b rest ih =>
    have := b.isLt
    rw [packBytes, List.length_cons, pow_succ']; omega

end Sys2Proof.Machine
end

