-- ==== Sys2Proof/Laws/Pins.lean ====
section
/-! SUPPORT. What is written to the pins is what is read from them, and the decoder's outcomes. -/

namespace Sys2Proof

@[simp] theorem writePins_length (k w : Nat) : (writePins k w).length = k := by
  induction k generalizing w with
  | zero => rfl
  | succ k ih => simp [writePins, ih]

/-- Written pins are all at 0 or 1. -/
theorem writePins_all_defined (k w : Nat) : (writePins k w).all Level.defined = true := by
  induction k generalizing w with
  | zero => rfl
  | succ k ih =>
    rw [writePins, List.all_cons, ih, Bool.and_true]
    split <;> rfl

/-- Reading `k` written pins gives the low `k` bits of the number. -/
theorem readPins_writePins (k w : Nat) : readPins (writePins k w) = some (w % 2 ^ k) := by
  induction k generalizing w with
  | zero => simp [writePins, readPins, Nat.mod_one]
  | succ k ih =>
    have h := Nat.mod_mul (x := w) (a := 2) (b := 2 ^ k)
    rw [← Nat.pow_succ'] at h
    rcases Nat.mod_two_eq_zero_or_one w with e | e
    · simp [writePins, readPins, ih, e, h]
    · simp [writePins, readPins, ih, e, h]; omega

/-- A number read from pins has no more bits than there are pins, and writing it back gives the pins. -/
theorem readPins_some {pins : List Level} {w : Nat} (h : readPins pins = some w) :
    w < 2 ^ pins.length ∧ writePins pins.length w = pins := by
  induction pins generalizing w with
  | nil =>
    obtain rfl : 0 = w := by simpa [readPins] using h
    simp [writePins]
  | cons l rest ih =>
    cases l <;> simp only [readPins, Option.map_eq_some_iff, reduceCtorEq] at h
    all_goals
      obtain ⟨v, hv, rfl⟩ := h
      obtain ⟨lt, eq⟩ := ih hv
      refine ⟨by rw [List.length_cons, Nat.pow_succ']; omega, ?_⟩
      rw [List.length_cons, writePins]
    · rw [Nat.mul_mod_right, Nat.mul_div_cancel_left v (by decide), eq]; rfl
    · rw [Nat.mul_add_mod, show (2 * v + 1) / 2 = v by omega, eq]; rfl

/-- Pins have a number exactly when all of them are at 0 or 1. -/
theorem readPins_isSome (pins : List Level) : (readPins pins).isSome = pins.all Level.defined := by
  induction pins with
  | nil => rfl
  | cons l rest ih => cases l <;> simp [readPins, Level.defined, ih]

theorem decode_of_wrongPinCount {p : Presented} (h : p.rightPinCount = false) :
    decode p = .error .wrongPinCount := by simp [decode, h]

theorem decode_of_undefined {p : Presented} (h : p.rightPinCount = true) (u : p.allDefined = false) :
    decode p = .error .undefinedBit := by
  have : readPins p.pins = none := by
    rw [← Option.not_isSome_iff_eq_none, readPins_isSome]; simpa [Presented.allDefined] using u
  simp [decode, h, this]

/-- What a decoded operation was read from. -/
theorem decode_ok {p : Presented} {i : Instr} (h : decode p = .ok i) :
    p.rightPinCount = true ∧ ∃ w, readPins p.pins = some w ∧ i = decodeWord p.unit w := by
  simp only [decode] at h
  split at h
  · split at h
    · rename_i c _ w e; exact ⟨c, w, e, by simpa using h.symm⟩
    · simp at h
  · simp at h

theorem decode_of_wellFormed {p : Presented} (h : p.wellFormed = true) :
    ∃ w, readPins p.pins = some w ∧ decode p = .ok (decodeWord p.unit w) := by
  obtain ⟨c, d⟩ : p.rightPinCount = true ∧ p.allDefined = true := by simpa [Presented.wellFormed] using h
  obtain ⟨w, e⟩ := Option.isSome_iff_exists.mp ((readPins_isSome p.pins).trans d)
  exact ⟨w, e, by simp [decode, c, e]⟩

/-- Decoding written pins: the operation of the number's low bits. -/
theorem decode_writePins (u : SubBlock) (w : Nat) :
    decode ⟨u, writePins u.width w⟩ = .ok (decodeWord u (w % 2 ^ u.width)) := by
  simp [decode, Presented.rightPinCount, readPins_writePins]

/-- An operation read from a sub-block's operand is one of that sub-block's. -/
theorem decodeWord_unit (u : SubBlock) (w : Nat) : (decodeWord u w).unit = u := by
  cases u
  case frameAssembler =>
    simp only [decodeWord, decodeReq, requestInstr]
    split <;> rfl
  all_goals rfl

/-- An operation's operand bits fit its format. -/
theorem encodeWord_lt (i : Instr) : encodeWord i < 2 ^ i.unit.width := by
  cases i <;> exact BitVec.isLt _

/-! ### Fields of a request word -/

theorem reqWord_toNat (m f : Sel) (t : Byte) :
    (reqWord m f t).toNat = m.toNat * 2048 + f.toNat * 256 + t.toNat := by
  simp only [reqWord, BitVec.toNat_append, Nat.shiftLeft_eq]
  have := f.isLt; have := t.isLt
  rw [← Nat.shiftLeft_eq, ← Nat.shiftLeft_eq, Nat.shiftLeft_or_distrib, Nat.or_assoc]
  rw [← Nat.shiftLeft_add_eq_or_of_lt t.isLt, ← Nat.shiftLeft_add]
  have h : f.toNat <<< 8 + t.toNat < 2 ^ 11 := by rw [Nat.shiftLeft_eq]; omega
  rw [show (3 + 8) = 11 from rfl, ← Nat.shiftLeft_add_eq_or_of_lt h]
  simp only [Nat.shiftLeft_eq]; omega

theorem decodeReq_reqWord (m f : Sel) (t : Byte) : decodeReq (reqWord m f t) = requestInstr m f t := by
  have hm : (reqWord m f t).extractLsb' 11 3 = m := by
    apply BitVec.eq_of_toNat_eq
    rw [BitVec.extractLsb'_toNat, reqWord_toNat, Nat.shiftRight_eq_div_pow]
    have := m.isLt; have := f.isLt; have := t.isLt; omega
  have hf : (reqWord m f t).extractLsb' 8 3 = f := by
    apply BitVec.eq_of_toNat_eq
    rw [BitVec.extractLsb'_toNat, reqWord_toNat, Nat.shiftRight_eq_div_pow]
    have := m.isLt; have := f.isLt; have := t.isLt; omega
  have ht : (reqWord m f t).extractLsb' 0 8 = t := by
    apply BitVec.eq_of_toNat_eq
    rw [BitVec.extractLsb'_toNat, reqWord_toNat, Nat.shiftRight_eq_div_pow]
    have := m.isLt; have := f.isLt; have := t.isLt; omega
  rw [decodeReq, hm, hf, ht]

/-! ### Fields of a CS3 operand -/

theorem checksumWord_toNat (m t f : Byte) :
    (m ++ t ++ f).toNat = m.toNat * 65536 + t.toNat * 256 + f.toNat := by
  rw [BitVec.toNat_append, BitVec.toNat_append, ← Nat.shiftLeft_add_eq_or_of_lt f.isLt,
    ← Nat.shiftLeft_add_eq_or_of_lt t.isLt]
  simp only [Nat.shiftLeft_eq]; omega

/-- The three bytes read back from the bits of a CS3 operand (30_encoding.md R38). -/
theorem decodeWord_checksumWord (m t f : Byte) :
    decodeWord .checksumCalculator (m ++ t ++ f).toNat = .checksum m t f := by
  have := m.isLt; have := t.isLt; have := f.isLt
  rw [checksumWord_toNat, decodeWord]
  congr 1 <;>
  · apply BitVec.eq_of_toNat_eq
    rw [BitVec.extractLsb'_toNat, BitVec.toNat_ofNat, Nat.shiftRight_eq_div_pow]
    omega

/-- The operation of a request, selector by selector. -/
theorem requestInstr_cases (m f : Sel) (t : Byte) :
    (m = 0 ∧ requestInstr m f t = .encodeAuto f t) ∨ (m = 1 ∧ requestInstr m f t = .encodeCool f t) ∨
    (m = 2 ∧ requestInstr m f t = .encodeDry f t) ∨ (m = 3 ∧ requestInstr m f t = .encodeFan f t) ∨
    (m = 4 ∧ requestInstr m f t = .encodeHeat f t) ∨ (m = 5 ∧ requestInstr m f t = .encodeOff f t) ∨
    (m = 6 ∧ requestInstr m f t = .encodeUnknown 0 f t) ∨ (m = 7 ∧ requestInstr m f t = .encodeUnknown 1 f t) := by
  have : ∀ m : Sel, m = 0 ∨ m = 1 ∨ m = 2 ∨ m = 3 ∨ m = 4 ∨ m = 5 ∨ m = 6 ∨ m = 7 := by decide
  rcases this m with rfl | rfl | rfl | rfl | rfl | rfl | rfl | rfl <;> simp [requestInstr]

end Sys2Proof
end

