-- ==== Sys2Proof/Laws/State.lean ====
section
/-! SUPPORT. One lemma per field per update of the state: what each operation of Machine/Ops.lean drives, and that it leaves
every other field alone. -/

namespace Sys2Proof.Machine

variable (s : State)

/-! ### driveBlock -/

@[simp] theorem State.driveBlock_requests (i : Inputs) : (s.driveBlock i).requests = s.requests := rfl
@[simp] theorem State.driveBlock_block (i : Inputs) : (s.driveBlock i).block = Block.settledOn i := rfl
@[simp] theorem State.driveBlock_rev8 (i : Inputs) : (s.driveBlock i).rev8 = s.rev8 := rfl
@[simp] theorem State.driveBlock_rev4 (i : Inputs) : (s.driveBlock i).rev4 = s.rev4 := rfl
@[simp] theorem State.driveBlock_modeLut (i : Inputs) : (s.driveBlock i).modeLut = s.modeLut := rfl
@[simp] theorem State.driveBlock_fanLut (i : Inputs) : (s.driveBlock i).fanLut = s.fanLut := rfl
@[simp] theorem State.driveBlock_tempEnc (i : Inputs) : (s.driveBlock i).tempEnc = s.tempEnc := rfl
@[simp] theorem State.driveBlock_checksum (i : Inputs) : (s.driveBlock i).checksum = s.checksum := rfl

/-! ### driveRev8 -/

@[simp] theorem State.driveRev8_requests (n : Byte) : (s.driveRev8 n).requests = s.requests := rfl
@[simp] theorem State.driveRev8_block (n : Byte) : (s.driveRev8 n).block = s.block := rfl
@[simp] theorem State.driveRev8_rev8 (n : Byte) : (s.driveRev8 n).rev8 = Rev8Unit.settledOn n := rfl
@[simp] theorem State.driveRev8_rev4 (n : Byte) : (s.driveRev8 n).rev4 = s.rev4 := rfl
@[simp] theorem State.driveRev8_modeLut (n : Byte) : (s.driveRev8 n).modeLut = s.modeLut := rfl
@[simp] theorem State.driveRev8_fanLut (n : Byte) : (s.driveRev8 n).fanLut = s.fanLut := rfl
@[simp] theorem State.driveRev8_tempEnc (n : Byte) : (s.driveRev8 n).tempEnc = s.tempEnc := rfl
@[simp] theorem State.driveRev8_checksum (n : Byte) : (s.driveRev8 n).checksum = s.checksum := rfl

/-! ### driveRev4 -/

@[simp] theorem State.driveRev4_requests (n : Nibble) : (s.driveRev4 n).requests = s.requests := rfl
@[simp] theorem State.driveRev4_block (n : Nibble) : (s.driveRev4 n).block = s.block := rfl
@[simp] theorem State.driveRev4_rev8 (n : Nibble) : (s.driveRev4 n).rev8 = s.rev8 := rfl
@[simp] theorem State.driveRev4_rev4 (n : Nibble) : (s.driveRev4 n).rev4 = Rev4Unit.settledOn n := rfl
@[simp] theorem State.driveRev4_modeLut (n : Nibble) : (s.driveRev4 n).modeLut = s.modeLut := rfl
@[simp] theorem State.driveRev4_fanLut (n : Nibble) : (s.driveRev4 n).fanLut = s.fanLut := rfl
@[simp] theorem State.driveRev4_tempEnc (n : Nibble) : (s.driveRev4 n).tempEnc = s.tempEnc := rfl
@[simp] theorem State.driveRev4_checksum (n : Nibble) : (s.driveRev4 n).checksum = s.checksum := rfl

/-! ### driveModeLut -/

@[simp] theorem State.driveModeLut_requests (sel : Sel) : (s.driveModeLut sel).requests = s.requests := rfl
@[simp] theorem State.driveModeLut_block (sel : Sel) : (s.driveModeLut sel).block = s.block := rfl
@[simp] theorem State.driveModeLut_rev8 (sel : Sel) : (s.driveModeLut sel).rev8 = s.rev8 := rfl
@[simp] theorem State.driveModeLut_rev4 (sel : Sel) : (s.driveModeLut sel).rev4 = s.rev4 := rfl
@[simp] theorem State.driveModeLut_modeLut (sel : Sel) : (s.driveModeLut sel).modeLut = LutUnit.modeSettledOn sel := rfl
@[simp] theorem State.driveModeLut_fanLut (sel : Sel) : (s.driveModeLut sel).fanLut = s.fanLut := rfl
@[simp] theorem State.driveModeLut_tempEnc (sel : Sel) : (s.driveModeLut sel).tempEnc = s.tempEnc := rfl
@[simp] theorem State.driveModeLut_checksum (sel : Sel) : (s.driveModeLut sel).checksum = s.checksum := rfl

/-! ### driveFanLut -/

@[simp] theorem State.driveFanLut_requests (sel : Sel) : (s.driveFanLut sel).requests = s.requests := rfl
@[simp] theorem State.driveFanLut_block (sel : Sel) : (s.driveFanLut sel).block = s.block := rfl
@[simp] theorem State.driveFanLut_rev8 (sel : Sel) : (s.driveFanLut sel).rev8 = s.rev8 := rfl
@[simp] theorem State.driveFanLut_rev4 (sel : Sel) : (s.driveFanLut sel).rev4 = s.rev4 := rfl
@[simp] theorem State.driveFanLut_modeLut (sel : Sel) : (s.driveFanLut sel).modeLut = s.modeLut := rfl
@[simp] theorem State.driveFanLut_fanLut (sel : Sel) : (s.driveFanLut sel).fanLut = LutUnit.fanSettledOn sel := rfl
@[simp] theorem State.driveFanLut_tempEnc (sel : Sel) : (s.driveFanLut sel).tempEnc = s.tempEnc := rfl
@[simp] theorem State.driveFanLut_checksum (sel : Sel) : (s.driveFanLut sel).checksum = s.checksum := rfl

/-! ### driveTempEnc -/

@[simp] theorem State.driveTempEnc_requests (t : Byte) : (s.driveTempEnc t).requests = s.requests := rfl
@[simp] theorem State.driveTempEnc_block (t : Byte) : (s.driveTempEnc t).block = s.block := rfl
@[simp] theorem State.driveTempEnc_rev8 (t : Byte) : (s.driveTempEnc t).rev8 = s.rev8 := rfl
@[simp] theorem State.driveTempEnc_rev4 (t : Byte) : (s.driveTempEnc t).rev4 = s.rev4 := rfl
@[simp] theorem State.driveTempEnc_modeLut (t : Byte) : (s.driveTempEnc t).modeLut = s.modeLut := rfl
@[simp] theorem State.driveTempEnc_fanLut (t : Byte) : (s.driveTempEnc t).fanLut = s.fanLut := rfl
@[simp] theorem State.driveTempEnc_tempEnc (t : Byte) : (s.driveTempEnc t).tempEnc = TempUnit.settledOn t := rfl
@[simp] theorem State.driveTempEnc_checksum (t : Byte) : (s.driveTempEnc t).checksum = s.checksum := rfl

/-! ### driveChecksum -/

@[simp] theorem State.driveChecksum_requests (m t f : Byte) : (s.driveChecksum m t f).requests = s.requests := rfl
@[simp] theorem State.driveChecksum_block (m t f : Byte) : (s.driveChecksum m t f).block = s.block := rfl
@[simp] theorem State.driveChecksum_rev8 (m t f : Byte) : (s.driveChecksum m t f).rev8 = s.rev8 := rfl
@[simp] theorem State.driveChecksum_rev4 (m t f : Byte) : (s.driveChecksum m t f).rev4 = s.rev4 := rfl
@[simp] theorem State.driveChecksum_modeLut (m t f : Byte) : (s.driveChecksum m t f).modeLut = s.modeLut := rfl
@[simp] theorem State.driveChecksum_fanLut (m t f : Byte) : (s.driveChecksum m t f).fanLut = s.fanLut := rfl
@[simp] theorem State.driveChecksum_tempEnc (m t f : Byte) : (s.driveChecksum m t f).tempEnc = s.tempEnc := rfl
@[simp] theorem State.driveChecksum_checksum (m t f : Byte) : (s.driveChecksum m t f).checksum = ChecksumUnit.settledOn m t f := rfl

/-! ### withFetchWord -/

@[simp] theorem State.withFetchWord_requests (nbits w : Nat) : (s.withFetchWord nbits w).requests = tablePresented nbits w :: s.requests := rfl
@[simp] theorem State.withFetchWord_block (nbits w : Nat) : (s.withFetchWord nbits w).block = s.block := rfl
@[simp] theorem State.withFetchWord_rev8 (nbits w : Nat) : (s.withFetchWord nbits w).rev8 = s.rev8 := rfl
@[simp] theorem State.withFetchWord_rev4 (nbits w : Nat) : (s.withFetchWord nbits w).rev4 = s.rev4 := rfl
@[simp] theorem State.withFetchWord_modeLut (nbits w : Nat) : (s.withFetchWord nbits w).modeLut = s.modeLut := rfl
@[simp] theorem State.withFetchWord_fanLut (nbits w : Nat) : (s.withFetchWord nbits w).fanLut = s.fanLut := rfl
@[simp] theorem State.withFetchWord_tempEnc (nbits w : Nat) : (s.withFetchWord nbits w).tempEnc = s.tempEnc := rfl
@[simp] theorem State.withFetchWord_checksum (nbits w : Nat) : (s.withFetchWord nbits w).checksum = s.checksum := rfl

/-! ### The block after a request -/

@[simp] theorem Block.settledOn_inputs (i : Inputs) : (Block.settledOn i).inputs = i := rfl
@[simp] theorem Block.settledOn_signals (i : Inputs) : (Block.settledOn i).signals = signalsOf i := rfl
@[simp] theorem Block.settledOn_outputs (i : Inputs) : (Block.settledOn i).outputs = outputsOf (encodeFrame i) := rfl

/-- A block settled on inputs is settled. -/
theorem Block.settledOn_self (i : Inputs) : Block.settledOn i = Block.settledOn (Block.settledOn i).inputs := rfl

end Sys2Proof.Machine
end

