-- ==== Sys2Proof/Laws/Exec.lean ====
section
/-! SUPPORT. What performing an operation and taking a step can do, said once. -/

namespace Sys2Proof.Machine

/-- The request an ENCODE operation presents; for a sub-block operation, none. -/
def requestOf : Instr → Option Inputs
  | .encodeAuto fan temp => some ⟨0, fan, temp⟩
  | .encodeCool fan temp => some ⟨1, fan, temp⟩
  | .encodeDry fan temp => some ⟨2, fan, temp⟩
  | .encodeFan fan temp => some ⟨3, fan, temp⟩
  | .encodeHeat fan temp => some ⟨4, fan, temp⟩
  | .encodeOff fan temp => some ⟨5, fan, temp⟩
  | .encodeUnknown x fan temp => some ⟨0b11#2 ++ x, fan, temp⟩
  | .rev8 _ => none
  | .rev4 _ => none
  | .modeLut _ => none
  | .fanLut _ => none
  | .tempEnc _ => none
  | .checksum _ _ _ => none

/-- Everything an operation can do: it answers a next state, in which either the block has settled on the operation's request
or one sub-block has settled on its operand. -/
theorem exec_cases (i : Instr) (s : State) :
    (∃ r, requestOf i = some r ∧ exec i s = .next (s.driveBlock r)) ∨
    (∃ n, i = .rev8 n ∧ exec i s = .next (s.driveRev8 n)) ∨
    (∃ n, i = .rev4 n ∧ exec i s = .next (s.driveRev4 n)) ∨
    (∃ sel, i = .modeLut sel ∧ exec i s = .next (s.driveModeLut sel)) ∨
    (∃ sel, i = .fanLut sel ∧ exec i s = .next (s.driveFanLut sel)) ∨
    (∃ t, i = .tempEnc t ∧ exec i s = .next (s.driveTempEnc t)) ∨
    (∃ m t f, i = .checksum m t f ∧ exec i s = .next (s.driveChecksum m t f)) := by
  cases i
  case rev8 n => exact .inr (.inl ⟨n, rfl, rfl⟩)
  case rev4 n => exact .inr (.inr (.inl ⟨n, rfl, rfl⟩))
  case modeLut sel => exact .inr (.inr (.inr (.inl ⟨sel, rfl, rfl⟩)))
  case fanLut sel => exact .inr (.inr (.inr (.inr (.inl ⟨sel, rfl, rfl⟩))))
  case tempEnc t => exact .inr (.inr (.inr (.inr (.inr (.inl ⟨t, rfl, rfl⟩)))))
  case checksum m t f => exact .inr (.inr (.inr (.inr (.inr (.inr ⟨m, t, f, rfl, rfl⟩)))))
  all_goals exact .inl ⟨_, rfl, rfl⟩

/-- Every operation answers a next state, with the same still to be presented. -/
theorem exec_next (i : Instr) (s : State) : ∃ t, exec i s = .next t ∧ t.requests = s.requests := by
  rcases exec_cases i s with ⟨_, _, e⟩ | ⟨_, _, e⟩ | ⟨_, _, e⟩ | ⟨_, _, e⟩ | ⟨_, _, e⟩ | ⟨_, _, e⟩ | ⟨_, _, _, _, e⟩ <;>
    exact ⟨_, e, rfl⟩

/-- Performing the operation of a request drives the block with that request. -/
theorem exec_requestInstr (m f : Sel) (t : Byte) (s : State) :
    exec (requestInstr m f t) s = .next (s.driveBlock ⟨m, f, t⟩) := by
  rcases requestInstr_cases m f t with ⟨rfl, h⟩ | ⟨rfl, h⟩ | ⟨rfl, h⟩ | ⟨rfl, h⟩ | ⟨rfl, h⟩ | ⟨rfl, h⟩ | ⟨rfl, h⟩ | ⟨rfl, h⟩ <;>
    rw [h] <;> rfl

theorem fetch_of_presented {s : State} {p : Presented} {rest : List Presented} (h : s.requests = p :: rest) :
    s.fetch = (p, { s with requests := rest }) := by rw [State.fetch, h]

/-- A step performs the operation that is presented next. -/
theorem step_of_ok {s : State} {p : Presented} {rest : List Presented} {i : Instr} (h : s.requests = p :: rest)
    (d : decode p = .ok i) : step s = exec i { s with requests := rest } := by
  simp only [step, fetch_of_presented h, d]

/-- A step refuses, by name, what the decoder rejects. -/
theorem step_of_error {s : State} {p : Presented} {rest : List Presented} {e : DecodeError}
    (h : s.requests = p :: rest) (d : decode p = .error e) : step s = .refused (refusalOf e) := by
  simp only [step, fetch_of_presented h, d]

/-- The held request decodes to the operation of the inputs. -/
theorem decode_heldRequest (i : Inputs) : decode (heldRequest i) = .ok (requestInstr i.modeSel i.fanSel i.tempC) := by
  have lt := (reqWord i.modeSel i.fanSel i.tempC).isLt
  refine (decode_writePins .frameAssembler _).trans ?_
  simp only [SubBlock.width, Nat.mod_eq_of_lt lt, decodeWord, BitVec.ofNat_toNat, BitVec.setWidth_eq, decodeReq_reqWord]

theorem step_of_held {s : State} (h : s.requests = []) : step s = .next (s.driveBlock s.block.inputs) := by
  have f : s.fetch = (heldRequest s.block.inputs, s) := by rw [State.fetch, h]
  rw [step, f]
  simp only [decode_heldRequest, exec_requestInstr]

/-- Everything a step can do when it answers a next state: the request on the inputs is held, or what is presented next is
taken off the list and performed. -/
theorem step_next {s t : State} (h : step s = .next t) :
    (s.requests = [] ∧ t = s.driveBlock s.block.inputs) ∨
    (∃ p rest i, s.requests = p :: rest ∧ decode p = .ok i ∧ exec i { s with requests := rest } = .next t) := by
  cases r : s.requests with
  | nil => exact .inl ⟨rfl, by simpa [step_of_held r] using h.symm⟩
  | cons p rest =>
    cases d : decode p with
    | ok i => exact .inr ⟨p, rest, i, rfl, d, (step_of_ok r d).symm.trans h⟩
    | error e => simp [step_of_error r d] at h

/-! ### Runs -/

theorem run_zero (s : State) : Sys2Proof.core.run 0 s = .next s := rfl

/-- A run whose first step answers a next state goes on from there. -/
theorem run_succ {s t : State} (k : Nat) (h : step s = .next t) :
    Sys2Proof.core.run (k + 1) s = Sys2Proof.core.run k t := by
  have e : Sys2Proof.core.step s = .next t := h
  simp only [Host.Core.run, e]

end Sys2Proof.Machine
end

