-- ==== Sys2Proof/Laws/FrontEnd.lean ====
section
/-! SUPPORT. One specification lemma per function of the token front end and the assembler. -/

namespace Sys2Proof.Machine

theorem upperChar_of_lower {c : Char} (h : 'a' ≤ c ∧ c ≤ 'z') : upperChar c = Char.ofNat (c.toNat - 32) := if_pos h

theorem upperChar_of_other {c : Char} (h : ¬('a' ≤ c ∧ c ≤ 'z')) : upperChar c = c := if_neg h

@[simp] theorem asciiUpper_length (x : Token) : (asciiUpper x).length = x.length := List.length_map ..

/-- The port holds the low 8 bits of the temperature. -/
theorem tempPort_eq (t : Int) : tempPort t = BitVec.ofInt 8 t := by
  apply BitVec.eq_of_toNat_eq
  rw [tempPort, BitVec.toNat_ofInt, BitVec.toNat_ofInt]; omega

/-- Going through the port changes no temperature code (41_code_tables.md R62). -/
theorem tempEnc_tempPort (t : Int) : tempEnc (tempValue (tempPort t)) = tempEnc t := by
  apply tempEnc_congr
  have := tempValue_emod (tempPort t)
  rw [tempPort, BitVec.toNat_ofInt] at this
  rw [tempPort]; omega

/-- The operand bits of a request's operation are the request word. -/
theorem encodeWord_requestInstr (m f : Sel) (c : Byte) : encodeWord (requestInstr m f c) = (reqWord m f c).toNat := by
  rcases requestInstr_cases m f c with ⟨rfl, h⟩ | ⟨rfl, h⟩ | ⟨rfl, h⟩ | ⟨rfl, h⟩ | ⟨rfl, h⟩ | ⟨rfl, h⟩ | ⟨rfl, h⟩ | ⟨rfl, h⟩ <;>
    rw [h] <;> rfl

theorem assembleWritten_ok {w : Written} (h : w.wellFormed = true) : assembleWritten w = .ok (writtenInstr w) := if_pos h

theorem assembleWritten_error {w : Written} (h : w.wellFormed = false) :
    assembleWritten w = .error .numberOutOfRange := if_neg (by simp [h])

end Sys2Proof.Machine
end

