-- ==== Sys2Proof/Laws/PerInstr.lean ====
section
/-! SUPPORT. The family Presentation: what the encoder presents for an operation is well formed, one lemma per constructor. -/

namespace Sys2Proof.Laws.Presentation

/-- The pins the encoder writes are as many as the format has bits, each at 0 or 1. -/
def Statement (i : Instr) : Prop := (encode i).wellFormed = true

theorem of_any (i : Instr) : Statement i := by
  simp [Statement, encode, Presented.wellFormed, Presented.rightPinCount, Presented.allDefined, writePins_all_defined]

theorem encodeAuto (fan : Sel) (temp : Byte) : Statement (.encodeAuto fan temp) := of_any _
theorem encodeCool (fan : Sel) (temp : Byte) : Statement (.encodeCool fan temp) := of_any _
theorem encodeDry (fan : Sel) (temp : Byte) : Statement (.encodeDry fan temp) := of_any _
theorem encodeFan (fan : Sel) (temp : Byte) : Statement (.encodeFan fan temp) := of_any _
theorem encodeHeat (fan : Sel) (temp : Byte) : Statement (.encodeHeat fan temp) := of_any _
theorem encodeOff (fan : Sel) (temp : Byte) : Statement (.encodeOff fan temp) := of_any _
theorem encodeUnknown (x : BitVec 1) (fan : Sel) (temp : Byte) : Statement (.encodeUnknown x fan temp) := of_any _
theorem rev8 (n : Byte) : Statement (.rev8 n) := of_any _
theorem rev4 (n : Nibble) : Statement (.rev4 n) := of_any _
theorem modeLut (s : Sel) : Statement (.modeLut s) := of_any _
theorem fanLut (s : Sel) : Statement (.fanLut s) := of_any _
theorem tempEnc (t : Byte) : Statement (.tempEnc t) := of_any _
theorem checksum (m t f : Byte) : Statement (.checksum m t f) := of_any _

end Sys2Proof.Laws.Presentation
end

