-- ==== Sys2Proof/Tests/Slice0.lean ====
section
/-! SUPPORT. Small tests. Expected values are the spec's own: 95_test_vectors.md, the examples and tables of the rule files, or words
written out from 30_encoding.md. Then the witnesses of the statements' hypotheses. -/

namespace Sys2Proof.Machine.Tests

/-- Pins from a word written most significant bit first, as 30_encoding.md prints words. -/
def word (bits : List Nat) : List Level := (bits.map fun b => if b = 1 then Level.one else Level.zero).reverse

/-- One field of the state after performing an operation in the state after reset. -/
def after (i : Instr) (read : State → α) (d : α) : α :=
  match exec i State.reset with
  | .next t => read t
  | .fault _ => d
  | .refused _ => d

/-- The frame after one step from reset that presents a request word. -/
def frameOfWord (w : Nat) : List Byte :=
  match step (State.reset.withFetchWord 16 w) with
  | .next t => t.frame
  | .fault _ => []
  | .refused _ => []

/-! ### Well-formedness: an ill-formed term for each check -/

theorem test_wf_pin_count : (Presented.mk .bitReversal4 (word [1, 0, 1])).wellFormed = false := by decide
theorem test_wf_undefined_pin : (Presented.mk .modeCodeTableLut [.zero, .undefined, .one]).wellFormed = false := by decide
theorem test_wf_accepts : (Presented.mk .bitReversal4 (word [1, 0, 1, 1])).wellFormed = true := by decide
theorem test_wf_written_temp : (Written.encode .cool .auto 128).wellFormed = false := by decide
theorem test_wf_written_temp_enc : (Written.tempEnc (-129)).wellFormed = false := by decide
theorem test_wf_written_byte : (Written.checksum 0 256 0).wellFormed = false := by decide
theorem test_wf_written_accepts : (Written.checksum 0 255 0).wellFormed = true := by decide

/-! ### Decoding: every row's word, bit by bit (30_encoding.md R38, R40, R41, R44) -/

theorem test_decode_auto : decode ⟨.frameAssembler, word [0, 0, 0, 0, 0, 0, 1, 1, 1, 1, 1, 1, 1, 1]⟩ = .ok (.encodeAuto 0 0xFF) := by
  decide
theorem test_decode_cool : decode ⟨.frameAssembler, word [0, 0, 1, 0, 0, 0, 0, 0, 0, 1, 1, 0, 0, 0]⟩ = .ok (.encodeCool 0 24) := by
  decide
theorem test_decode_dry : decode ⟨.frameAssembler, word [0, 1, 0, 0, 1, 0, 0, 0, 0, 1, 1, 0, 0, 1]⟩ = .ok (.encodeDry 2 25) := by
  decide
theorem test_decode_fan : decode ⟨.frameAssembler, word [0, 1, 1, 0, 1, 1, 0, 0, 0, 1, 0, 1, 0, 0]⟩ = .ok (.encodeFan 3 20) := by
  decide
theorem test_decode_heat : decode ⟨.frameAssembler, word [1, 0, 0, 0, 0, 1, 0, 0, 0, 1, 0, 0, 0, 0]⟩ = .ok (.encodeHeat 1 16) := by
  decide
theorem test_decode_off : decode ⟨.frameAssembler, word [1, 0, 1, 1, 1, 1, 1, 0, 0, 0, 0, 0, 0, 0]⟩ = .ok (.encodeOff 7 0x80) := by
  decide
theorem test_decode_unk7 :
    decode ⟨.frameAssembler, word [1, 1, 1, 1, 1, 1, 0, 0, 0, 1, 1, 0, 0, 0]⟩ = .ok (.encodeUnknown 1 7 24) := by decide
theorem test_decode_rev8 : decode ⟨.bitReversal8, word [0, 0, 1, 0, 1, 1, 1, 0]⟩ = .ok (.rev8 0x2E) := by decide
theorem test_decode_rev4 : decode ⟨.bitReversal4, word [0, 0, 1, 1]⟩ = .ok (.rev4 3) := by decide
theorem test_decode_mode_lut : decode ⟨.modeCodeTableLut, word [0, 0, 1]⟩ = .ok (.modeLut 1) := by decide
theorem test_decode_fan_lut : decode ⟨.fanSpeedCodeTableLut, word [1, 0, 0]⟩ = .ok (.fanLut 4) := by decide
theorem test_decode_temp_enc : decode ⟨.temperatureEncoder, word [1, 1, 1, 1, 1, 0, 0, 0]⟩ = .ok (.tempEnc 0xF8) := by decide
theorem test_decode_checksum :
    decode ⟨.checksumCalculator, word [1, 0, 0, 0, 0, 0, 0, 0, 1, 0, 0, 0, 0, 0, 0, 1, 0, 0, 0, 0, 1, 1, 0, 1]⟩ =
      .ok (.checksum 0x80 0x81 0x0D) := by decide
theorem test_decode_rejects_padding : decodeTableWord 16 0x4818 = none := by decide
theorem test_decode_rejects_undefined :
    decode ⟨.bitReversal4, [.one, .undefined, .zero, .zero]⟩ = .error .undefinedBit := by decide

/-! ### The ENCODE operations (95_test_vectors.md V-FRAME, P1 to P3), each through one step -/

theorem test_encode_auto : frameOfWord 0x007F = [0, 8, 8, 127, 144, 12, 143, 0, 0, 0, 0, 0, 4, 253] := by decide
theorem test_encode_cool : frameOfWord 0x0916 = [0, 8, 8, 127, 144, 12, 134, 128, 128, 0, 0, 0, 4, 178] := by decide
theorem test_encode_dry : frameOfWord 0x121B = [0, 8, 8, 127, 144, 12, 141, 64, 64, 0, 0, 0, 4, 223] := by decide
theorem test_encode_fan : frameOfWord 0x1C17 = [0, 8, 8, 127, 144, 12, 142, 192, 32, 0, 0, 0, 4, 28] := by decide
theorem test_encode_heat : frameOfWord 0x241F = [0, 8, 8, 127, 144, 12, 143, 32, 32, 0, 0, 0, 4, 237] := by decide
theorem test_encode_off : frameOfWord 0x2F80 = [0, 8, 8, 64, 191] := by decide
theorem test_encode_unknown : frameOfWord 0x3F18 = [0, 8, 8, 127, 144, 12, 129, 0, 0, 0, 0, 0, 4, 244] := by decide

/-- The end state of 95_test_vectors.md P1: the lanes, unused ones at 0x00 (43_frame_assembler.md R74), and the length. -/
theorem test_off_outputs : after (.encodeOff 1 22) (fun t => t.block.outputs) ⟨0, #v[0, 0, 0, 0, 0, 0, 0, 0, 0, 0, 0, 0, 0, 0]⟩ =
    ⟨5, #v[0, 8, 8, 64, 191, 0, 0, 0, 0, 0, 0, 0, 0, 0]⟩ := by decide

/-- 20_memory.md R30: byte 0 in the least significant lane. -/
theorem test_frame_bus : after (.encodeOff 1 22) (fun t => t.block.outputs.frameBus) 0 = 0xBF40080800 := by decide

/-! ### The sub-blocks (95_test_vectors.md V-REV8, V-REV4, V-MODE, V-FAN, V-TEMP, V-CS) -/

theorem test_rev8 : after (.rev8 0x2E) (fun t => t.rev8.r) 0 = 0x74 := by decide
theorem test_rev8_wide : rev8Of 0x1FF = 0xFF := by decide
theorem test_rev4 : after (.rev4 3) (fun t => t.rev4.r) 0 = 12 := by decide
theorem test_rev4_negative : rev4Of (-8) = 1 := by decide
theorem test_mode_lut : after (.modeLut 0b011) (fun t => t.modeLut.code) 0 = 0xC0 := by decide
theorem test_fan_lut : after (.fanLut 0b100) (fun t => t.fanLut.code) 0 = 0x20 := by decide
theorem test_temp_enc : after (.tempEnc 100) (fun t => t.tempEnc.tempCode) 0 = 0x82 := by decide
theorem test_temp_enc_negative : after (.tempEnc 0xEF) (fun t => (t.tempEnc.tempIdx, t.tempEnc.tempCode)) (0, 0) = (15, 0x8F) := by
  decide
theorem test_checksum_wraps : after (.checksum 0xFF 0xFF 0xFF) (fun t => (t.checksum.total, t.checksum.checksum)) (0, 0) =
    (797, 205) := by decide
theorem test_checksum_negative : after (.checksum 0x0D 0x80 0x00) (fun t => (t.checksum.diff, t.checksum.checksum)) (0, 0) =
    (0xFF, 0xFF) := by decide

/-! ### The token front end and the assembler (95_test_vectors.md V-TOK) -/

theorem test_classify_mode : ["off", "OFF", "Off", "Cool", "heat", "BOGUS", " cool", ""].map (fun x => classifyMode x.toList) =
    [5, 6, 6, 1, 4, 6, 6, 6] := by decide
theorem test_classify_fan : ["HIGH", "Med", "lOw", "Quiet", "medium", " low", "Auto", "off"].map (fun x => classifyFan x.toList) =
    [1, 2, 3, 4, 5, 5, 0, 5] := by decide
theorem test_encode_tokens : encodeTokens 24 "cool".toList "auto".toList =
    [0, 8, 8, 127, 144, 12, 129, 128, 0, 0, 0, 0, 4, 116] := by decide
theorem test_assemble_unk : assembleWritten (.encode .unk7 .unk7 24) = .ok (.encodeUnknown 1 7 24) := by decide
theorem test_assemble_negative : assembleWritten (.encode .auto .auto (-1)) = .ok (.encodeAuto 0 0xFF) := by decide
theorem test_assemble_cuts : assembleWritten (.rev4 0x11) = .ok (.rev4 1) := by decide

/-! ### Reset and step -/

/-- The reset values listed in INVENTORY.md (the frame is 95_test_vectors.md V-FR-1's, at 0 in place of 16). -/
theorem test_reset_outputs : State.reset.block.outputs = ⟨14, #v[0, 8, 8, 127, 144, 12, 128, 0, 0, 0, 0, 0, 4, 245]⟩ := by decide
theorem test_reset_signals : State.reset.block.signals = ⟨false, 0, 0, 128, 0, 33, 175, 245⟩ := by decide

/-- Two requests to present, and the third one an operand of a sub-block. -/
def threePresented : State :=
  { State.reset with requests := [encode (.encodeCool 0 24), encode (.encodeOff 1 22), encode (.rev8 1)] }

/-! ### Witnesses: states and operands that meet each statement's hypotheses together -/

theorem witness_StepKeepsWiresSettled : State.reset.Settled ∧ step State.reset = .next State.reset :=
  ⟨⟨rfl, rfl, rfl, rfl, rfl, rfl, rfl⟩, rfl⟩
theorem witness_StepPerformsPresentedOperation :
    (threePresented.requests = encode (.encodeCool 0 24) :: [encode (.encodeOff 1 22), encode (.rev8 1)] ∧
      decode (encode (.encodeCool 0 24)) = .ok (.encodeCool 0 24)) ∧ State.reset.requests = [] := by decide
theorem witness_UndefinedInputBitIsRefused :
    let p : Presented := ⟨.modeCodeTableLut, [.one, .zero, .undefined]⟩
    ({ State.reset with requests := [p] } : State).requests = p :: [] ∧ p.rightPinCount = true ∧
      Level.undefined ∈ p.pins := by decide
theorem witness_NothingStopsTheBlock : threePresented.Presentable := by
  unfold State.Presentable; decide
/-- With entries left to present, and with none. -/
theorem witness_StepKeepsProgramPresentable : threePresented.Presentable ∧ State.reset.Presentable := by
  unfold State.Presentable; decide
theorem witness_FramesOfASequenceOfRequests :
    let reqs : List Inputs := [⟨1, 0, 24⟩, ⟨5, 1, 22⟩]
    ({ State.reset with requests := reqs.map heldRequest } : State).requests = reqs.map heldRequest ∧
      reqs[1]? = some ⟨5, 1, 22⟩ := by decide
/-- One operation for each clause. -/
theorem witness_NothingDependsOnHistory :
    (exec (.encodeOff 7 0x80) State.reset = .next (State.reset.driveBlock ⟨5, 7, 0x80⟩) ∧
      (Instr.encodeOff 7 0x80).unit = .frameAssembler) ∧
    (exec (.rev8 0xFF) State.reset = .next (State.reset.driveRev8 0xFF) ∧ (Instr.rev8 0xFF).unit = .bitReversal8) ∧
    (exec (.rev4 15) State.reset = .next (State.reset.driveRev4 15) ∧ (Instr.rev4 15).unit = .bitReversal4) ∧
    (exec (.modeLut 7) State.reset = .next (State.reset.driveModeLut 7) ∧ (Instr.modeLut 7).unit = .modeCodeTableLut) ∧
    (exec (.fanLut 7) State.reset = .next (State.reset.driveFanLut 7) ∧ (Instr.fanLut 7).unit = .fanSpeedCodeTableLut) ∧
    (exec (.tempEnc 0x80) State.reset = .next (State.reset.driveTempEnc 0x80) ∧
      (Instr.tempEnc 0x80).unit = .temperatureEncoder) ∧
    (exec (.checksum 0xFF 0xFF 0xFF) State.reset = .next (State.reset.driveChecksum 0xFF 0xFF 0xFF) ∧
      (Instr.checksum 0xFF 0xFF 0xFF).unit = .checksumCalculator) :=
  ⟨⟨rfl, rfl⟩, ⟨rfl, rfl⟩, ⟨rfl, rfl⟩, ⟨rfl, rfl⟩, ⟨rfl, rfl⟩, ⟨rfl, rfl⟩, ⟨rfl, rfl⟩⟩
/-- A REV8 meets every clause but its own, an ENCODE the one that is left. -/
theorem witness_OperationDrivesItsOwnSubBlockOnly :
    exec (.rev8 0xFF) State.reset = .next (State.reset.driveRev8 0xFF) ∧ (Instr.rev8 0xFF).unit ≠ .frameAssembler ∧
    (Instr.rev8 0xFF).unit ≠ .bitReversal4 ∧ (Instr.rev8 0xFF).unit ≠ .modeCodeTableLut ∧
    (Instr.rev8 0xFF).unit ≠ .fanSpeedCodeTableLut ∧ (Instr.rev8 0xFF).unit ≠ .temperatureEncoder ∧
    (Instr.rev8 0xFF).unit ≠ .checksumCalculator ∧
    exec (.encodeAuto 0 24) State.reset = .next (State.reset.driveBlock ⟨0, 0, 24⟩) ∧
    (Instr.encodeAuto 0 24).unit ≠ .bitReversal8 :=
  ⟨rfl, by decide, by decide, by decide, by decide, by decide, by decide, rfl, by decide⟩
theorem witness_StepTakesOneRequest : ∃ t, step threePresented = .next t ∧
    t.requests = [encode (.encodeOff 1 22), encode (.rev8 1)] := ⟨_, rfl, rfl⟩
theorem witness_HeldRequestChangesNothing : State.reset.block.Settled ∧ State.reset.requests = [] := ⟨rfl, rfl⟩
theorem witness_EveryEncodingIsLegal :
    (encode (.encodeUnknown 1 7 0xFF)).wellFormed = true ∧ 6 ≤ (6 : Sel).toNat ∧ 5 ≤ (5 : Sel).toNat := by decide
theorem witness_OnlyWellFormedPinsDecode : decode ⟨.bitReversal4, word [1, 1, 1, 1]⟩ = .ok (.rev4 15) := by decide
theorem witness_EncodeOfDecode : decode ⟨.fanSpeedCodeTableLut, word [1, 1, 1]⟩ = .ok (.fanLut 7) := by decide
/-- The last word of each row of 30_encoding.md R44, and a sub-block that is not the frame assembler. -/
theorem witness_OperationMapOfRequestWords :
    (0x07FF &&& 0x3800#14 = 0x0000#14 ∧ 0x0FFF &&& 0x3800#14 = 0x0800#14 ∧ 0x17FF &&& 0x3800#14 = 0x1000#14 ∧
      0x1FFF &&& 0x3800#14 = 0x1800#14 ∧ 0x27FF &&& 0x3800#14 = 0x2000#14 ∧ 0x2FFF &&& 0x3800#14 = 0x2800#14 ∧
      0x3FFF &&& 0x3000#14 = 0x3000#14) ∧ SubBlock.checksumCalculator ≠ .frameAssembler := by decide
theorem witness_SignedTemperaturePort :
    (0x80 : Byte).extractLsb' 0 4 = (0x70 : Byte).extractLsb' 0 4 ∧ (4 : Nat) ≤ 4 := by decide
theorem witness_RevEightReversesTheByte : (0 : Nat) < 8 ∧ (7 : Nat) < 8 := by decide
theorem witness_RevEightIsAnInvolution : (0 : Int) ≤ 255 ∧ (255 : Int) ≤ 255 := by decide
theorem witness_RevFourReversesTheNibble : (0 : Nat) < 4 ∧ (3 : Nat) < 4 := by decide
theorem witness_RevFourReadsLowBitsOnly : (0 : Nat) < 4 ∧ (3 : Nat) < 4 := by decide
/-- Each clause of the two tables by its own selector. -/
theorem witness_ModeLutEntries : [0b000, 0b001, 0b010, 0b011, 0b100, 0b101, 0b110, 0b111].map modeLut =
    [0x00, 0x80, 0x40, 0xC0, 0x20, 0x00, 0x00, 0x00] := by decide
theorem witness_FanLutEntries : [0b000, 0b001, 0b010, 0b011, 0b100, 0b101, 0b110, 0b111].map fanLut =
    [0x00, 0x80, 0x40, 0xC0, 0x20, 0x00, 0x00, 0x00] := by decide
theorem witness_ChecksumClosedForm :
    (0b111 : Sel) ≠ 0b101 ∧ exec (requestInstr 0b111 4 31) State.reset = .next (State.reset.driveBlock ⟨7, 4, 31⟩) :=
  ⟨by decide, rfl⟩
theorem witness_EncodeHeatFrame : (0b100 : Sel) ≠ 0b101 := by decide
theorem witness_EncodeUnknownFrame :
    ['O', 'f', 'f'] ∈ ([['O', 'F', 'F'], ['O', 'f', 'f'], ['B', 'O', 'G', 'U', 'S']] : List Token) := by decide
theorem witness_CommandFrameLayout : (0b000 : Sel) ≠ 0b101 := by decide
theorem witness_FrameLengths : (0b110 : Sel) ≠ 0b101 ∧ (0b101 : Sel) = 0b101 := by decide
theorem witness_CommandFramePositions : (0b100 : Sel) ≠ 0b101 := by decide
theorem witness_ReversedFrameSumIsZero : (0b001 : Sel) ≠ 0b101 := by decide
theorem witness_AnomaliesAreIndistinguishable : 6 ≤ (0b110 : Sel).toNat ∧ 5 ≤ (0b101 : Sel).toNat := by decide
/-- Two command requests, equal and different in each field. -/
theorem witness_PowerOffPrecedence : (0b110 : Sel) ≠ 0b101 ∧ (0b100 : Sel) ≠ 0b101 ∧ (31 : Byte) = 31 ∧ (7 : Sel) = 7 := by decide
/-- The first and the last letter that `ascii_upper` changes, and the characters just outside. -/
theorem witness_asciiUpper : ('a' ≤ 'a' ∧ 'a' ≤ 'z' ∧ 'a' ≤ 'z' ∧ 'z' ≤ 'z') ∧
    ¬('a' ≤ Char.ofNat 96 ∧ Char.ofNat 96 ≤ 'z') ∧ ¬('a' ≤ Char.ofNat 123 ∧ Char.ofNat 123 ≤ 'z') ∧
    asciiUpper ['a', 'z', Char.ofNat 96, Char.ofNat 123] = ['A', 'Z', Char.ofNat 96, Char.ofNat 123] := by decide
theorem witness_ClassifyModeTokens : ["off", "aUTO", "cOOL", "dRY", "fAN", "hEAT"].map (fun x => classifyMode x.toList) =
    [5, 0, 1, 2, 3, 4] := by decide
theorem witness_ClassifyFanTokens : ["aUTO", "hIGH", "mED", "lOW", "qUIET"].map (fun x => classifyFan x.toList) =
    [0, 1, 2, 3, 4] := by decide
theorem witness_OffInAnotherCaseIsNotOff : asciiUpper ['O', 'f', 'f'] = ['O', 'F', 'F'] ∧ ['O', 'f', 'f'] ≠ ['o', 'f', 'f'] := by
  decide
theorem witness_TokenEncoderIsTheBlock : (-128 : Int) ≤ -128 ∧ (127 : Int) ≤ 127 ∧ ['O', 'F', 'F'] ≠ ['o', 'f', 'f'] := by decide
theorem witness_WrittenRequestsAssemble : ((-128 : Int) ≤ -128 ∧ (-128 : Int) ≤ 127) ∧ ((-128 : Int) ≤ 127 ∧ (127 : Int) ≤ 127) ∧
    ((-129 : Int) < -128 ∨ (127 : Int) < -129) ∧ ((128 : Int) < -128 ∨ (127 : Int) < 128) := by decide

end Sys2Proof.Machine.Tests
end

