-- ==== Sys2Proof/Proofs/FrameBus.lean ====
section
/-! SUPPORT and proof. `frame_bus` as a number, and its lanes (20_memory.md R30). -/

namespace Sys2Proof.Machine

/-- The 112 bits of the bus hold all 14 lanes: packing cuts nothing off. -/
theorem Outputs.toNat_frameBus (o : Outputs) : o.frameBus.toNat = packBytes o.frameByte.toList := by
  have hlt : packBytes o.frameByte.toList < 2 ^ 112 := by simpa using packBytes_lt o.frameByte.toList
  rw [Outputs.frameBus, BitVec.toNat_ofNat, Nat.mod_eq_of_lt hlt]

/-- Settles O51: lane `i` is digit `i` of the bus in base 256, and that digit is what the bit slice reads. -/
theorem frameBusPacking : Obligations.FrameBusPacking := by
  intro o i
  apply BitVec.eq_of_toNat_eq
  calc (o.frameBus.extractLsb' (8 * i) 8).toNat
      = packBytes o.frameByte.toList / 256 ^ i.val % 256 := by
        rw [BitVec.extractLsb'_toNat, Outputs.toNat_frameBus, Nat.shiftRight_eq_div_pow, pow_mul,
          show 2 ^ 8 = 256 from rfl]
    _ = (o.frameByte.toList.getD i 0).toNat := packBytes_get _ _
    _ = o.frameByte[i].toNat := by simp [List.getD_eq_getElem?_getD]

end Sys2Proof.Machine
end

