-- ==== Sys2Proof/Proofs/Encoding.lean ====
section
/-! SUPPORT and proof. Request words as their three fields, the operation map, and the signed temperature port
(30_encoding.md R39, R42, R44, R45). -/

namespace Sys2Proof.Machine

/-! ### Every encoding is legal -/

/-- Selectors that name no mode fall back to 0x00 (41_code_tables.md R54). -/
theorem modeLut_unrecognized : ∀ m : Sel, 6 ≤ m.toNat → modeLut m = 0x00 := by decide

/-- Selectors that name no fan speed fall back to 0x00 (41_code_tables.md R55). -/
theorem fanLut_unrecognized : ∀ f : Sel, 5 ≤ f.toNat → fanLut f = 0x00 := by decide

/-- Settles O11: well-formed pins decode, to an operation of their own sub-block, and every operation answers a next state. -/
theorem everyEncodingIsLegal : Obligations.EveryEncodingIsLegal := by
  refine ⟨fun p s h => ?_, modeLut_unrecognized, fanLut_unrecognized⟩
  obtain ⟨w, -, hdec⟩ := decode_of_wellFormed h
  obtain ⟨t, hexec, -⟩ := exec_next (decodeWord p.unit w) s
  exact ⟨_, t, hdec, decodeWord_unit _ _, hexec⟩

/-! ### Request words under a mask -/

/-- A request word is made of its own three fields. -/
theorem reqWord_fields (req : Req) :
    reqWord (req.extractLsb' 11 3) (req.extractLsb' 8 3) (req.extractLsb' 0 8) = req := by
  rw [reqWord, BitVec.append_assoc, BitVec.extractLsb'_append_extractLsb'_eq_extractLsb' (by rfl)]
  exact BitVec.extractLsb'_append_extractLsb'

/-- Request words are masked field by field. -/
theorem reqWord_and (m f m' f' : Sel) (c c' : Byte) :
    reqWord m f c &&& reqWord m' f' c' = reqWord (m &&& m') (f &&& f') (c &&& c') :=
  calc m ++ f ++ c &&& m' ++ f' ++ c'
      = (m ++ f &&& m' ++ f') ++ (c &&& c') := BitVec.and_append
    _ = (m &&& m') ++ (f &&& f') ++ (c &&& c') := by rw [BitVec.and_append]

/-- Request words with the same operands are equal exactly when their modes are. -/
theorem reqWord_mode_inj (m m' f : Sel) (c : Byte) : reqWord m f c = reqWord m' f c ↔ m = m' :=
  (BitVec.append_left_inj c).trans (BitVec.append_left_inj f)

/-- A mask on `mode_sel` compares `mode_sel` alone: the operand fields do not matter. -/
theorem and_modeMask_eq_iff (req : Req) (mask match_ : Sel) :
    req &&& reqWord mask 0#3 0#8 = reqWord match_ 0#3 0#8 ↔ req.extractLsb' 11 3 &&& mask = match_ := by
  conv_lhs => rw [← reqWord_fields req, reqWord_and, BitVec.and_zero, BitVec.and_zero]
  exact reqWord_mode_inj _ _ _ _

/-! ### The operation map -/

/-- Requests with the same operands are the same operation exactly when their modes are equal. -/
theorem requestInstr_mode_inj (m m' f : Sel) (c : Byte) : requestInstr m f c = requestInstr m' f c ↔ m = m' := by
  refine ⟨fun h => ?_, fun h => by rw [h]⟩
  have hword := congrArg encodeWord h
  rw [encodeWord_requestInstr, encodeWord_requestInstr] at hword
  exact (reqWord_mode_inj m m' f c).mp (BitVec.eq_of_toNat_eq hword)

/-- The row of a fully masked `mode_sel`: its words are those that decode to that mode's operation. -/
theorem decodeReq_eq_iff_modeMask (req : Req) (m : Sel) :
    req &&& 0x3800#14 = reqWord m 0#3 0#8 ↔
      decodeReq req = requestInstr m (req.extractLsb' 8 3) (req.extractLsb' 0 8) := by
  rw [show 0x3800#14 = reqWord (BitVec.allOnes 3) 0#3 0#8 from rfl, and_modeMask_eq_iff, BitVec.and_allOnes, decodeReq,
    requestInstr_mode_inj]

/-- `encodeUnknown x` is the operation of the mode `11x`. -/
theorem requestInstr_unknown (x : BitVec 1) (f : Sel) (c : Byte) :
    requestInstr (0b11#2 ++ x) f c = .encodeUnknown x f c := by
  obtain rfl | rfl : x = 0 ∨ x = 1 := by revert x; decide
  all_goals rfl

/-- The mode mask `11x`: both unrecognized modes, whatever `mode_sel[0]` is. -/
theorem and_six_eq_iff : ∀ m : Sel, m &&& 6 = 6 ↔ m = 0b11#2 ++ m.extractLsb' 0 1 := by decide

/-- The row `11x`, which leaves `mode_sel[0]` out of its mask. -/
theorem decodeReq_eq_encodeUnknown_iff (req : Req) :
    req &&& 0x3000#14 = 0x3000#14 ↔
      decodeReq req = .encodeUnknown (req.extractLsb' 11 1) (req.extractLsb' 8 3) (req.extractLsb' 0 8) := by
  have hx : req.extractLsb' 11 1 = (req.extractLsb' 11 3).extractLsb' 0 1 := by
    apply BitVec.eq_of_getLsbD_eq
    intro i hi
    obtain rfl : i = 0 := by omega
    simp
  rw [show 0x3000#14 = reqWord 6 0#3 0#8 from rfl, and_modeMask_eq_iff, and_six_eq_iff, ← hx, decodeReq,
    ← requestInstr_unknown, requestInstr_mode_inj]

/-- A request's mnemonic is chosen by `mode_sel` alone (30_encoding.md R44). -/
theorem requestInstr_mnemonic (m f f' : Sel) (c c' : Byte) :
    (requestInstr m f c).mnemonic = (requestInstr m f' c').mnemonic := by
  rcases requestInstr_cases m f c with
    ⟨rfl, _⟩ | ⟨rfl, _⟩ | ⟨rfl, _⟩ | ⟨rfl, _⟩ | ⟨rfl, _⟩ | ⟨rfl, _⟩ | ⟨rfl, _⟩ | ⟨rfl, _⟩ <;> rfl

/-- Every format but REQ belongs to one operation (30_encoding.md R38). -/
theorem decodeWord_mnemonic {u : SubBlock} (h : u ≠ .frameAssembler) (w w' : Nat) :
    (decodeWord u w).mnemonic = (decodeWord u w').mnemonic := by
  cases u
  case frameAssembler => exact absurd rfl h
  all_goals rfl

/-- Settles O15: each of the first six rows is the row of its `mode_sel`, the seventh that of `11x`. -/
theorem operationMapOfRequestWords : Obligations.OperationMapOfRequestWords :=
  ⟨fun req =>
    ⟨decodeReq_eq_iff_modeMask req 0, decodeReq_eq_iff_modeMask req 1, decodeReq_eq_iff_modeMask req 2,
      decodeReq_eq_iff_modeMask req 3, decodeReq_eq_iff_modeMask req 4, decodeReq_eq_iff_modeMask req 5,
      decodeReq_eq_encodeUnknown_iff req⟩,
    requestInstr_mnemonic, fun _ w w' h => decodeWord_mnemonic h w w'⟩

/-! ### Packing -/

/-- Settles O16: the concatenation as a number, whose low 8 bits are the temperature's remainder. -/
theorem requestWordPacking : Obligations.RequestWordPacking := by
  intro m f c
  refine ⟨?_, decodeReq_reqWord m f c⟩
  rw [reqWord_toNat, tempValue_emod]
  push_cast
  rfl

/-! ### The signed temperature port -/

theorem tempValue_range (c : Byte) : -128 ≤ tempValue c ∧ tempValue c ≤ 127 := by
  have hlo := c.le_toInt
  have hhi := c.toInt_lt
  rw [tempValue_eq_toInt]
  omega

/-- Read unsigned, a port's remainder mod 16 is its low 4 bits. -/
theorem toNat_emod_sixteen {w : Nat} (v : BitVec w) : (v.toNat : Int) % 16 = (v.extractLsb' 0 4).toNat := by
  rw [BitVec.extractLsb'_toNat]
  rfl

/-- Read signed, it is the same: the two readings differ by 0 or `2 ^ w`, a multiple of 16. -/
theorem toInt_emod_sixteen {w : Nat} {v : BitVec w} (h : 4 ≤ w) : v.toInt % 16 = (v.extractLsb' 0 4).toNat := by
  have hdvd : (16 : Int) ∣ (2 ^ w : Nat) := by exact_mod_cast pow_dvd_pow 2 h
  rw [← toNat_emod_sixteen, BitVec.toInt_eq_toNat_bmod, ← Int.emod_emod_of_dvd _ hdvd, Int.bmod_emod,
    Int.emod_emod_of_dvd _ hdvd]

/-- The temperature reaches the frame through its code alone. -/
theorem encodeFrame_congr_temp (m f : Sel) {c c' : Byte} (h : tempEnc (tempValue c) = tempEnc (tempValue c')) :
    encodeFrame ⟨m, f, c⟩ = encodeFrame ⟨m, f, c'⟩ := by
  by_cases hm : m = 5
  · rw [encodeFrame_off hm, encodeFrame_off hm]
  · rw [encodeFrame_command hm, encodeFrame_command hm, h]

/-- Settles O18: mod 16, a port of 4 bits or more is its low 4 bits, read signed or unsigned, and the code depends on no more. -/
theorem signedTemperaturePort : Obligations.SignedTemperaturePort := by
  refine ⟨fun c => ⟨?_, tempValue_range c⟩, fun m f c c' h => ?_, fun w v h => ⟨?_, ?_⟩⟩
  · rw [tempValue]
    cases c.getLsbD 7 <;> rfl
  · apply encodeFrame_congr_temp
    apply tempEnc_congr
    rw [tempValue_eq_toInt, tempValue_eq_toInt, toInt_emod_sixteen (by decide), toInt_emod_sixteen (by decide), h]
  · exact tempEnc_congr ((toInt_emod_sixteen h).trans (toNat_emod_sixteen v).symm)
  · apply tempEnc_congr
    have hlt := (v.extractLsb' 0 4).isLt
    rw [toNat_emod_sixteen]
    omega

end Sys2Proof.Machine
end

