-- ==== Sys2Proof/Proofs/BitReversal.lean ====
section
/-! SUPPORT and proof. `REV8` and `REV4` on an operand of any width and sign: cut it, then reverse what is left
(40_bit_reversal.md R48 to R52). -/

namespace Sys2Proof.Machine

/-! ### The bits of a cut operand -/

/-- Cutting an integer to its low `w` bits keeps each bit below `w`: what it takes away is a multiple of `2 ^ (i + 1)`. -/
theorem emod_two_pow_bit (x : Int) {i w : Nat} (h : i < w) : x % 2 ^ w / 2 ^ i % 2 = x / 2 ^ i % 2 := by
  obtain ⟨k, rfl⟩ := Nat.exists_eq_add_of_lt h
  have hcut : x % 2 ^ (i + k + 1) = x + 2 ^ i * (2 * -(2 ^ k * (x / 2 ^ (i + k + 1)))) := by
    rw [Int.emod_def]
    ring
  rw [hcut, Int.add_mul_ediv_left x _ (pow_ne_zero i two_ne_zero), Int.add_mul_emod_self_left]

/-- Bit `i` of an integer cut to `w` bits is bit `i` of its two's complement. -/
theorem getLsbD_ofInt (x : Int) {i w : Nat} (h : i < w) :
    (BitVec.ofInt w x).getLsbD i = decide (x / 2 ^ i % 2 = 1) := by
  have hcut : ((BitVec.ofInt w x).toNat : Int) = x % 2 ^ w := by
    rw [BitVec.toNat_ofInt, Int.toNat_of_nonneg (Int.emod_nonneg x (by positivity)), Nat.cast_pow, Nat.cast_ofNat]
  rw [← BitVec.testBit_toNat, Nat.testBit_eq_decide_div_mod_eq, decide_eq_decide, ← emod_two_pow_bit x h, ← hcut]
  norm_cast

/-! ### REV8 -/

/-- `REV8` of any integer is `REV8` of its low 8 bits. -/
theorem rev8Of_eq_rev8 (n : Int) : rev8Of n = rev8 (BitVec.ofInt 8 n) := by
  rw [rev8Of, show BitVec.ofInt 8 (n % 256) = BitVec.ofInt 8 n from BitVec.eq_of_toNat_eq (by simp)]

/-- `REV8` twice leaves the low 8 bits as they were. -/
theorem rev8Of_rev8Of (x : Int) : ((rev8Of (rev8Of x).toNat).toNat : Int) = x % 256 := by
  rw [rev8Of_eq_rev8, BitVec.ofInt_natCast, BitVec.ofNat_toNat, BitVec.setWidth_eq, rev8Of_eq_rev8, rev8_rev8,
    BitVec.toNat_ofInt]
  omega

/-- Settles O19: the operation drives its own wires only, and a wider operand is cut before its bits are reversed. -/
theorem revEightReversesTheByte : Obligations.RevEightReversesTheByte := by
  refine ⟨fun n s => ⟨rev8 n, rfl, fun i h => rev8_getLsbD n h⟩, fun x i h => ?_⟩
  rw [rev8Of_eq_rev8, rev8_getLsbD _ h, getLsbD_ofInt x (by omega)]

/-- Settles O20: a byte is its own remainder mod 256, and an involution is bijective. -/
theorem revEightIsAnInvolution : Obligations.RevEightIsAnInvolution := by
  refine ⟨fun x hlo hhi => ?_, Function.Involutive.bijective rev8_rev8, by decide⟩
  rw [rev8Of_rev8Of, Int.emod_eq_of_lt hlo (by omega)]

/-! ### REV4 -/

/-- Settles O22: the loop's four steps read the operand mod 16, and the bits of that are the operand's own. -/
theorem revFourReadsLowBitsOnly : Obligations.RevFourReadsLowBitsOnly := by
  refine fun n => ⟨rev4Of_mod n, fun i h => ?_⟩
  rw [rev4Of_eq_rev4, rev4_getLsbD _ h, getLsbD_ofInt n (by omega)]

/-- The document's mask `& 0xF` keeps every result of `REV4`, which has 4 bits. -/
theorem nibble_and_mask (n : Nibble) : n.toNat &&& 0xF = n.toNat := by
  rw [Nat.and_two_pow_sub_one_eq_mod n.toNat 4, Nat.mod_eq_of_lt n.isLt]

/-- Settles O23: the second `REV4` reads the first one's 4 bits, and on 4 bits it undoes it. -/
theorem revFourIsAnInvolution : Obligations.RevFourIsAnInvolution := by
  refine ⟨fun x => ?_, by decide⟩
  rw [nibble_and_mask, ← rev4, rev4Of_eq_rev4, rev4_rev4, BitVec.toNat_ofInt]
  omega

/-- Settles O21: the operation drives its own wires only, with the reversed operand as their result. -/
theorem revFourReversesTheNibble : Obligations.RevFourReversesTheNibble :=
  fun n _ => ⟨rev4 n, rfl, fun _ h => rev4_getLsbD n h⟩

end Sys2Proof.Machine
end

