-- ==== Sys2Proof/Proofs/CodeTables.lean ====
section
/-! SUPPORT and proof. The two code tables (41_code_tables.md R54, R55, R57), the classification of tokens (R58 to R61), and the
string-level encoder (R62). -/

namespace Sys2Proof.Machine

/-! ### The tables -/

/-- Settles O24: the operation drives the table's own wires only, with the table's entry as their code. -/
theorem modeLutEntries : Obligations.ModeLutEntries := by
  intro sel s
  obtain ⟨h0, h1, h2, h3, h4, h5, h6, h7⟩ := modeLut_values
  refine ⟨modeLut sel, rfl, ?_, ?_, ?_, ?_, ?_, ?_, ?_, ?_⟩ <;> rintro rfl <;> assumption

/-- Settles O25: the operation drives the table's own wires only, with the table's entry as their code. -/
theorem fanLutEntries : Obligations.FanLutEntries := by
  intro sel s
  obtain ⟨h0, h1, h2, h3, h4, h5, h6, h7⟩ := fanLut_values
  refine ⟨fanLut sel, rfl, ?_, ?_, ?_, ?_, ?_, ?_, ?_, ?_⟩ <;> rintro rfl <;> assumption

/-- Read from its top bit down, a named mode's code is the mode's own number (41_code_tables.md R57). -/
theorem rev8_modeLut : ∀ sel : Sel, [0, 1, 2, 3, 4, 0, 0, 0][sel.toNat]? = some (rev8 (modeLut sel)).toNat := by decide

/-- And a named fan speed's code the fan speed's. -/
theorem rev8_fanLut : ∀ sel : Sel, [0, 1, 2, 3, 4, 0, 0, 0][sel.toNat]? = some (rev8 (fanLut sel)).toNat := by decide

/-- Settles O26: the second operation's operand is the code the first one left on the table's wires. -/
theorem reversedCodes : Obligations.ReversedCodes :=
  ⟨fun sel _ => ⟨_, _, rfl, rfl, rev8_modeLut sel⟩, fun sel _ => ⟨_, _, rfl, rfl, rev8_fanLut sel⟩⟩

/-! ### Case folding -/

/-- `ascii_upper` on one character (41_code_tables.md R58): 32 below a lower-case letter there is a character, its upper case. -/
theorem upperChar_spec (c : Char) :
    ('a' ≤ c ∧ c ≤ 'z' → (upperChar c).toNat + 32 = c.toNat) ∧ (¬('a' ≤ c ∧ c ≤ 'z') → upperChar c = c) := by
  refine ⟨fun h => ?_, upperChar_of_other⟩
  have hlo : 97 ≤ c.toNat := h.1
  have hhi : c.toNat ≤ 122 := h.2
  have hvalid : (c.toNat - 32).isValidChar := .inl (by omega)
  rw [upperChar_of_lower h, Char.toNat_ofNat, if_pos hvalid]
  omega

/-! ### Classification -/

/-- Everything `classify_mode` can answer: the off test comes first, then the five names folded, then the fallback. -/
theorem classifyMode_cases (token : Token) :
    (token = ['o', 'f', 'f'] ∧ classifyMode token = 5) ∨
    token ≠ ['o', 'f', 'f'] ∧
      ((asciiUpper token = ['A', 'U', 'T', 'O'] ∧ classifyMode token = 0) ∨
      (asciiUpper token = ['C', 'O', 'O', 'L'] ∧ classifyMode token = 1) ∨
      (asciiUpper token = ['D', 'R', 'Y'] ∧ classifyMode token = 2) ∨
      (asciiUpper token = ['F', 'A', 'N'] ∧ classifyMode token = 3) ∨
      (asciiUpper token = ['H', 'E', 'A', 'T'] ∧ classifyMode token = 4) ∨
      ((asciiUpper token ≠ ['A', 'U', 'T', 'O'] ∧ asciiUpper token ≠ ['C', 'O', 'O', 'L'] ∧ asciiUpper token ≠ ['D', 'R', 'Y'] ∧
        asciiUpper token ≠ ['F', 'A', 'N'] ∧ asciiUpper token ≠ ['H', 'E', 'A', 'T']) ∧ classifyMode token = 6)) := by
  rw [classifyMode, offLiteral]
  split_ifs <;> simp [*]

/-- Everything `classify_fan` can answer: the five names folded, then the fallback. -/
theorem classifyFan_cases (token : Token) :
    (asciiUpper token = ['A', 'U', 'T', 'O'] ∧ classifyFan token = 0) ∨
    (asciiUpper token = ['H', 'I', 'G', 'H'] ∧ classifyFan token = 1) ∨
    (asciiUpper token = ['M', 'E', 'D'] ∧ classifyFan token = 2) ∨
    (asciiUpper token = ['L', 'O', 'W'] ∧ classifyFan token = 3) ∨
    (asciiUpper token = ['Q', 'U', 'I', 'E', 'T'] ∧ classifyFan token = 4) ∨
    ((asciiUpper token ≠ ['A', 'U', 'T', 'O'] ∧ asciiUpper token ≠ ['H', 'I', 'G', 'H'] ∧ asciiUpper token ≠ ['M', 'E', 'D'] ∧
      asciiUpper token ≠ ['L', 'O', 'W'] ∧ asciiUpper token ≠ ['Q', 'U', 'I', 'E', 'T']) ∧ classifyFan token = 5) := by
  rw [classifyFan]
  split_ifs <;> simp [*]

/-- Settles O52: in each case of `classifyMode_cases` at most one of the equivalences has its sides true. -/
theorem classifyModeTokens : Obligations.ClassifyModeTokens := by
  refine ⟨upperChar_spec, fun _ => rfl, fun token => ?_⟩
  rcases classifyMode_cases token with ⟨rfl, -⟩ | ⟨hoff, ⟨hup, hsel⟩ | ⟨hup, hsel⟩ | ⟨hup, hsel⟩ | ⟨hup, hsel⟩ | ⟨hup, hsel⟩ |
    ⟨hup, hsel⟩⟩
  · decide
  all_goals simp [hsel, hoff, hup]

/-- Settles O54: in each case of `classifyFan_cases` at most one of the equivalences has its sides true. -/
theorem classifyFanTokens : Obligations.ClassifyFanTokens := by
  refine ⟨upperChar_spec, fun _ => rfl, fun token => ?_⟩
  rcases classifyFan_cases token with ⟨hup, hsel⟩ | ⟨hup, hsel⟩ | ⟨hup, hsel⟩ | ⟨hup, hsel⟩ | ⟨hup, hsel⟩ | ⟨hup, hsel⟩
  all_goals simp [hsel, hup]

/-- The off literal alone is power-off. -/
theorem classifyMode_ne_off {token : Token} (h : token ≠ ['o', 'f', 'f']) : classifyMode token ≠ 5 := by
  obtain ⟨-, -, htable⟩ := classifyModeTokens
  obtain ⟨hoff, -⟩ := htable token
  exact hoff.not.mpr h

/-- Off in another case folds onto no mode's name, which leaves the last of `classifyMode_cases`. -/
theorem classifyMode_of_upper_off {token : Token} (hup : asciiUpper token = ['O', 'F', 'F']) (hne : token ≠ ['o', 'f', 'f']) :
    classifyMode token = 6 := by
  have hcases := classifyMode_cases token
  simpa [hup, hne] using hcases

/-! ### The string-level encoder -/

/-- The frame of any mode token but off is the command frame of the unbounded integer temperature (41_code_tables.md R62). -/
theorem encodeTokens_command (temp : Int) {mode : Token} (fan : Token) (h : mode ≠ ['o', 'f', 'f']) :
    encodeTokens temp mode fan =
      [0, 8, 8, 127, 144, 12, tempEnc temp, modeLut (classifyMode mode), fanLut (classifyFan fan), 0, 0, 0, 4,
        checksumOf (modeLut (classifyMode mode)) (tempEnc temp) (fanLut (classifyFan fan))] := by
  have hsel : (tokenInputs temp mode fan).modeSel ≠ 5 := classifyMode_ne_off h
  rw [encodeTokens, encodeFrame_command hsel, commandFrame_eq]
  simp only [tokenInputs, tempEnc_tempPort]

/-- Settles O53: the token is no power-off request, and the selector it falls back to has the code 0x00. -/
theorem offInAnotherCaseIsNotOff : Obligations.OffInAnotherCaseIsNotOff := by
  intro token fan temp hup hne
  have hsel := classifyMode_of_upper_off hup hne
  refine ⟨hsel, ?_⟩
  rw [encodeTokens_command temp fan hne, hsel, modeLut_unrecognized 6 (by decide)]

/-- The port holds a temperature in its range exactly. -/
theorem tempValue_ofInt {temp : Int} (hlo : -128 ≤ temp) (hhi : temp ≤ 127) : tempValue (BitVec.ofInt 8 temp) = temp := by
  rw [tempValue_eq_toInt]
  exact BitVec.toInt_ofInt_eq_self (by decide) hlo (by omega)

/-- Settles O55: performing the request settles the block on the classified tokens, and its outputs show their frame. -/
theorem tokenEncoderIsTheBlock : Obligations.TokenEncoderIsTheBlock := by
  refine ⟨fun temp mode fan s => ⟨_, exec_requestInstr _ _ _ s, ?_⟩, fun _ => tempValue_ofInt,
    fun temp _ fan => encodeTokens_command temp fan, by decide⟩
  rw [← tempPort_eq]
  exact settledOn_frame (tokenInputs temp mode fan)

end Sys2Proof.Machine
end

