-- ==== Sys2Proof/Proofs/TemperatureEncoder.lean ====
section
/-! SUPPORT and proof. The temperature code and its bit reversal as functions of `temp_idx`, which is `t mod 16`
(42_temperature_encoder.md R63 to R68). -/

namespace Sys2Proof.Machine

/-! ### The index -/

/-- Taking 16 away first changes no remainder mod 16 (42_temperature_encoder.md R65). -/
theorem tempIdx_toNat_emod (t : Int) : ((tempIdx t).toNat : Int) = t % 16 := by
  rw [tempIdx_toNat, Int.sub_emod_right]

/-- The row of a temperature in the table of R68 is its index. -/
theorem toNat_emod_sixteen_eq_tempIdx (t : Int) : (t % 16).toNat = (tempIdx t).toNat := by
  rw [← tempIdx_toNat_emod, Int.toNat_natCast]

/-- On the port the index is wired to the low 4 bits (42_temperature_encoder.md R65). -/
theorem tempIdx_tempValue (c : Byte) : tempIdx (tempValue c) = c.extractLsb' 0 4 := by
  apply BitVec.eq_of_toNat_eq
  have hidx : ((tempIdx (tempValue c)).toNat : Int) = (c.extractLsb' 0 4).toNat := by
    rw [tempIdx_toNat_emod, tempValue_eq_toInt, toInt_emod_sixteen (by decide)]
  exact_mod_cast hidx

/-! ### The code -/

/-- The high nibble of a code is `1000` (42_temperature_encoder.md R64). -/
theorem tempEnc_high_bits (t : Int) : (tempEnc t).getLsbD 7 = true ∧ (tempEnc t).extractLsb' 4 3 = 0 := by
  have hhigh : ∀ r : Nibble, (0b1000#4 ++ r).getLsbD 7 = true ∧ (0b1000#4 ++ r).extractLsb' 4 3 = 0 := by decide
  rw [tempEnc_eq]
  exact hhigh _

/-- The low nibble of a byte has the byte's own bits. -/
theorem bit_low_nibble (c : Byte) {i : Nat} (h : i < 4) : bit (c.extractLsb' 0 4) i = bit c i := by
  apply BitVec.eq_of_getLsbD_eq
  intro j hj
  obtain rfl : j = 0 := by omega
  simp [bit, h]

/-- `REV4` of the low nibble of a byte is wired from the byte's own bits, in the opposite order. -/
theorem append_rev4_low_nibble (c : Byte) :
    0b1000#4 ++ rev4 (c.extractLsb' 0 4) = 0b1000#4 ++ bit c 0 ++ bit c 1 ++ bit c 2 ++ bit c 3 := by
  have hwires : ∀ k : Nibble, 0b1000#4 ++ rev4 k = 0b1000#4 ++ bit k 0 ++ bit k 1 ++ bit k 2 ++ bit k 3 := by decide
  rw [hwires, bit_low_nibble c (by decide), bit_low_nibble c (by decide), bit_low_nibble c (by decide),
    bit_low_nibble c (by decide)]

/-- The reversed code carries the index in its high nibble and 1 in its low one. -/
theorem rev8_tempEnc_toNat (t : Int) : (rev8 (tempEnc t)).toNat = 16 * (tempIdx t).toNat + 1 := by
  have happend : ∀ k : Nibble, (k ++ 0b0001#4).toNat = 16 * k.toNat + 1 := by decide
  rw [rev8_tempEnc, happend]

/-- The table of 42_temperature_encoder.md R68, its three columns by index. -/
theorem tempCodeTable_columns : ∀ k : Nibble,
    [0, 8, 4, 12, 2, 10, 6, 14, 1, 9, 5, 13, 3, 11, 7, 15][k.toNat]? = some (rev4 k).toNat ∧
    [128, 136, 132, 140, 130, 138, 134, 142, 129, 137, 133, 141, 131, 139, 135, 143][k.toNat]? =
      some (128 + (rev4 k).toNat) ∧
    [0x01, 0x11, 0x21, 0x31, 0x41, 0x51, 0x61, 0x71, 0x81, 0x91, 0xA1, 0xB1, 0xC1, 0xD1, 0xE1, 0xF1][k.toNat]? =
      some (16 * k.toNat + 1) := by decide

/-! ### The obligations -/

/-- Settles O27: the operation drives the encoder's own wires only, with the index and the code of the signed port. -/
theorem tempEncResult : Obligations.TempEncResult := by
  refine fun t s => ⟨tempIdx (tempValue t), tempEnc (tempValue t), rfl, tempIdx_toNat _, ?_⟩
  rw [tempEnc_toNat, Nat.add_comm]

/-- Settles O28: the code is 128 plus 4 bits. -/
theorem tempCodeRange : Obligations.TempCodeRange := by
  intro t
  have hsum := tempEnc_toNat t
  have hlt := (rev4 (tempIdx t)).isLt
  exact ⟨by omega, by omega, tempEnc_high_bits t⟩

/-- Settles O29: the index is the remainder mod 16, which a multiple of 16 leaves as it is and the port holds in its low nibble. -/
theorem tempCodeWraps : Obligations.TempCodeWraps := by
  refine ⟨fun t k => ⟨tempIdx_toNat_emod t, tempEnc_congr (Int.add_mul_emod_self_left t 16 k).symm⟩,
    fun c => ⟨tempIdx_tempValue c, ?_⟩⟩
  rw [tempEnc_eq, tempIdx_tempValue, append_rev4_low_nibble]

/-- Settles O30: the index is `(t - 16) mod 16`. -/
theorem reversedTempCode : Obligations.ReversedTempCode := by
  intro t
  rw [rev8_tempEnc_toNat, ← tempIdx_toNat]
  norm_cast

/-- Settles O31: a temperature's row is its index, and both codes are functions of the index. -/
theorem tempCodeTable : Obligations.TempCodeTable := by
  intro t
  obtain ⟨hrev, hcode, hreversed⟩ := tempCodeTable_columns (tempIdx t)
  rw [toNat_emod_sixteen_eq_tempIdx, tempEnc_toNat, rev8_tempEnc_toNat]
  refine ⟨hrev, hcode, hreversed, tempEnc_congr ?_⟩
  rw [Int.add_emod_left, Int.emod_emod]

end Sys2Proof.Machine
end

