-- ==== Sys2Proof/Proofs/FrameAssembler.lean ====
section
/-! SUPPORT and proof. The frame of a request: its layout, its length and its reversed sum on the command branch, and the ENCODE
operations one by one (43_frame_assembler.md R70 to R86). -/

namespace Sys2Proof.Machine

/-! ### The settled block on each branch -/

/-- The outputs on the command branch: the layout of 43_frame_assembler.md R71, with its length. -/
theorem settledOn_command {m : Sel} (h : m ≠ 5) (f : Sel) (c : Byte) :
    (Block.settledOn ⟨m, f, c⟩).outputs.frameLen = 14 ∧
    (Block.settledOn ⟨m, f, c⟩).outputs.frame =
      [0, 8, 8, 127, 144, 12, tempEnc (tempValue c), modeLut m, fanLut f, 0, 0, 0, 4,
        checksumOf (modeLut m) (tempEnc (tempValue c)) (fanLut f)] :=
  ⟨(settledOn_frameLen _).trans (if_neg h),
    (settledOn_frame _).trans ((encodeFrame_command h).trans (commandFrame_eq _ _ _ _))⟩

/-- The outputs on the power-off branch: the constant of 43_frame_assembler.md R70, with its length. -/
theorem settledOn_off (f : Sel) (c : Byte) :
    (Block.settledOn ⟨5, f, c⟩).outputs.frameLen = 5 ∧ (Block.settledOn ⟨5, f, c⟩).outputs.frame = [0, 8, 8, 64, 191] :=
  ⟨settledOn_frameLen _, (settledOn_frame _).trans (encodeFrame_off rfl)⟩

/-- Performing a command request leaves its frame on the outputs and changes no wire but the block's. -/
theorem exec_command {m : Sel} (h : m ≠ 5) (f : Sel) (c : Byte) (s : State) :
    ∃ b : Block, exec (requestInstr m f c) s = .next { s with block := b } ∧ b.inputs = ⟨m, f, c⟩ ∧
      b.outputs.frameLen = 14 ∧
      b.outputs.frame = [0, 8, 8, 127, 144, 12, tempEnc (tempValue c), modeLut m, fanLut f, 0, 0, 0, 4,
        checksumOf (modeLut m) (tempEnc (tempValue c)) (fanLut f)] :=
  ⟨_, exec_requestInstr m f c s, rfl, settledOn_command h f c⟩

/-- A request's total, difference and frame after performing it, from what the block's functions give for it. -/
theorem exec_request_example {m f : Sel} {c : Byte} {total : Total} {diff : Byte} {frame : List Byte}
    (h : (signalsOf ⟨m, f, c⟩).total = total ∧ (signalsOf ⟨m, f, c⟩).diff = diff ∧ encodeFrame ⟨m, f, c⟩ = frame)
    (s : State) :
    ∃ t : State, exec (requestInstr m f c) s = .next t ∧ t.block.signals.total = total ∧ t.block.signals.diff = diff ∧
      t.frame = frame := by
  obtain ⟨htotal, hdiff, hframe⟩ := h
  exact ⟨_, exec_requestInstr m f c s, htotal, hdiff, (settledOn_frame _).trans hframe⟩

/-! ### Unrecognized modes -/

theorem unknown_mode_ge : ∀ x : BitVec 1, 6 ≤ (0b11#2 ++ x).toNat := by decide

/-- An unrecognized mode is not power-off, and its code is that of AUTO. -/
theorem encodeFrame_unrecognized {m : Sel} (h : 6 ≤ m.toNat) (f : Sel) (c : Byte) :
    encodeFrame ⟨m, f, c⟩ = encodeFrame ⟨0, f, c⟩ := by
  have hm : m ≠ 5 := by
    rintro rfl
    exact absurd h (by decide)
  have hauto : (0 : Sel) ≠ 5 := by decide
  have hcode : modeLut m = modeLut 0 := modeLut_unrecognized m h
  rw [encodeFrame_command hm, encodeFrame_command hauto, hcode]

/-! ### The range of the codes and of the total -/

theorem modeLut_mem : ∀ m : Sel, modeLut m ∈ ([0x00, 0x20, 0x40, 0x80, 0xC0] : List Byte) := by decide

theorem fanLut_mem : ∀ f : Sel, fanLut f ∈ ([0x00, 0x20, 0x40, 0x80, 0xC0] : List Byte) := by decide

theorem rev8_modeLut_le : ∀ m : Sel, (rev8 (modeLut m)).toNat ≤ 4 := by decide

theorem rev8_fanLut_le : ∀ f : Sel, (rev8 (fanLut f)).toNat ≤ 4 := by decide

/-- The largest total of any request: 32, the reversed codes of HEAT and QUIET, and that of the index 15
(43_frame_assembler.md R84). -/
theorem checksumTotal_codes_le (m f : Sel) (t : Int) :
    (checksumTotal (modeLut m) (tempEnc t) (fanLut f)).toNat ≤ 281 := by
  have hmode := rev8_modeLut_le m
  have hfan := rev8_fanLut_le f
  have hidx := (tempIdx t).isLt
  rw [checksumTotal_toNat, rev8_tempEnc_toNat]
  omega

/-! ### The reversed sum -/

/-- The total and the reversed checksum add to 208 mod 256 (44_checksum.md R91). -/
theorem checksumTotal_add_rev8_checksumOf (m t f : Byte) :
    ((checksumTotal m t f).toNat + (rev8 (checksumOf m t f)).toNat) % 256 = 208 := by
  have hdiff := checksumDiff_toNat (checksumTotal m t f)
  rw [rev8_checksumOf]
  omega

/-- From position 5 on, the reversed bytes of a command frame are 48 for `12`, the three codes, 32 for `4` and the checksum: 48
more than the total and the reversed checksum together. -/
theorem reversed_command_sum (t m f : Byte) :
    (((commandFrame t m f (checksumOf m t f)).drop 5).map fun b => (rev8 b).toNat).sum =
      48 + (checksumTotal m t f).toNat + (rev8 (checksumOf m t f)).toNat := by
  have hconst : (rev8 12).toNat = 48 ∧ (rev8 0).toNat = 0 ∧ (rev8 4).toNat = 32 := by decide
  obtain ⟨htwelve, hzero, hfour⟩ := hconst
  simp only [commandFrame_eq, List.drop_succ_cons, List.drop_zero, List.map_cons, List.map_nil, List.sum_cons, List.sum_nil,
    htwelve, hzero, hfour, checksumTotal_toNat]
  omega

/-! ### Every request -/

/-- Settles O44: the command branch of the settled block. -/
theorem commandFrameLayout : Obligations.CommandFrameLayout :=
  fun m f c s h => ⟨_, exec_requestInstr m f c s, settledOn_command h f c⟩

/-- Settles O46: each branch has its own length, and the frame is as long as the outputs say. -/
theorem frameLengths : Obligations.FrameLengths := by
  intro m f c s
  have hlen : (Block.settledOn ⟨m, f, c⟩).outputs.frameLen = if m = 5 then 5 else 14 := settledOn_frameLen _
  refine ⟨_, exec_requestInstr m f c s, ?_, fun h => hlen.trans (if_neg h), fun h => hlen.trans (if_pos h)⟩
  show (Block.settledOn ⟨m, f, c⟩).outputs.frame.length = (Block.settledOn ⟨m, f, c⟩).outputs.frameLen.toNat
  rw [settledOn_frame, encodeFrame_length, hlen]
  split <;> rfl

/-- Settles O47: the layout's constants, and the ranges of the three codes. -/
theorem commandFramePositions : Obligations.CommandFramePositions := by
  intro m f c s h
  obtain ⟨t, hexec, -, hframe⟩ := commandFrameLayout m f c s h
  obtain ⟨hlo, hhi, -⟩ := tempCodeRange (tempValue c)
  exact ⟨t, _, _, _, _, hexec, hframe, hlo, hhi, modeLut_mem m, fanLut_mem f⟩

/-- Settles O48: the reversed sum is 48 above the total and the reversed checksum, which add to 208 mod 256. -/
theorem reversedFrameSumIsZero : Obligations.ReversedFrameSumIsZero := by
  intro m f c s h
  obtain ⟨t, hexec, -, hframe⟩ := commandFrameLayout m f c s h
  rw [← commandFrame_eq] at hframe
  refine ⟨t, hexec, by rw [hframe]; rfl, ?_⟩
  have hsum := checksumTotal_add_rev8_checksumOf (modeLut m) (tempEnc (tempValue c)) (fanLut f)
  rw [hframe, reversed_command_sum]
  omega

/-! ### The ENCODE operations -/

/-- Settles O42: the power-off branch of the settled block. -/
theorem encodeOffFrame : Obligations.EncodeOffFrame :=
  fun fan temp _ => ⟨_, rfl, rfl, settledOn_off fan temp⟩

/-- Settles O37: the command request of mode 000, whose frame the unrecognized modes share. -/
theorem encodeAutoFrame : Obligations.EncodeAutoFrame := by
  refine ⟨exec_command (m := 0) (by decide), decodeReq_reqWord 0, fun x fan temp s s' => ⟨_, _, rfl, rfl, ?_⟩,
    exec_request_example (m := 0) (by decide)⟩
  have hsame := encodeFrame_unrecognized (unknown_mode_ge x) fan temp
  exact (settledOn_frame _).trans (hsame.symm.trans (settledOn_frame _).symm)

/-- Settles O38: the command request of mode 001. -/
theorem encodeCoolFrame : Obligations.EncodeCoolFrame :=
  ⟨exec_command (m := 1) (by decide), decodeReq_reqWord 1, by decide, exec_request_example (m := 1) (by decide)⟩

/-- Settles O39: the command request of mode 010. -/
theorem encodeDryFrame : Obligations.EncodeDryFrame :=
  ⟨exec_command (m := 2) (by decide), decodeReq_reqWord 2, by decide, exec_request_example (m := 2) (by decide)⟩

/-- Settles O40: the command request of mode 011. -/
theorem encodeFanFrame : Obligations.EncodeFanFrame :=
  ⟨exec_command (m := 3) (by decide), decodeReq_reqWord 3, exec_request_example (m := 3) (by decide)⟩

/-- Settles O41: the command request of mode 100; its largest total bounds that of every request. -/
theorem encodeHeatFrame : Obligations.EncodeHeatFrame := by
  have hlargest : (signalsOf ⟨4, 4, 31⟩).total = 281 ∧ (signalsOf ⟨4, 4, 31⟩).diff = 183 ∧
      (signalsOf ⟨4, 4, 31⟩).checksum = 237 := by decide
  exact ⟨exec_command (m := 4) (by decide), decodeReq_reqWord 4, fun _ => ⟨_, rfl, hlargest⟩,
    fun m f c s _ => ⟨_, exec_requestInstr m f c s, checksumTotal_codes_le m f (tempValue c)⟩,
    exec_request_example (m := 4) (by decide)⟩

/-- Settles O43: an unrecognized mode's frame is that of AUTO, and so are the outputs, which show the frame and no more. -/
theorem encodeUnknownFrame : Obligations.EncodeUnknownFrame := by
  refine ⟨fun x fan temp s => ?_, fun x fan temp => ?_, fun token htoken => ?_, fun s => ⟨_, rfl, ?_⟩⟩
  · have hsame := encodeFrame_unrecognized (unknown_mode_ge x) fan temp
    obtain ⟨hlen, hframe⟩ := settledOn_command (m := 0) (by decide) fan temp
    have houtputs : (Block.settledOn ⟨0b11#2 ++ x, fan, temp⟩).outputs = (Block.settledOn ⟨0, fan, temp⟩).outputs :=
      congrArg outputsOf hsame
    exact ⟨_, _, rfl, rfl, houtputs ▸ hlen, houtputs ▸ hframe, rfl, houtputs⟩
  · rw [decodeReq_reqWord, requestInstr_unknown]
  · have hsel : ∀ token ∈ ([['O', 'F', 'F'], ['O', 'f', 'f'], ['B', 'O', 'G', 'U', 'S']] : List Token),
        classifyMode token = 6 := by decide
    rw [hsel token htoken]
    exact requestInstr_unknown 0 0 24
  · have hframe : encodeFrame ⟨6, 0, 24⟩ = [0, 8, 8, 127, 144, 12, 129, 0, 0, 0, 0, 0, 4, 244] := by decide
    exact (settledOn_frame _).trans hframe

end Sys2Proof.Machine
end

