-- ==== Sys2Proof/Proofs/ChecksumCalculator.lean ====
section
/-! SUPPORT and proof. The checksum as a function of the operands' sum, the ways to compute the difference, and the closed form
inside the block (44_checksum.md R87 to R92). -/

namespace Sys2Proof.Machine

/-! ### The total -/

/-- The operands enter the checksum through the sum of their reversals alone (44_checksum.md R90). -/
theorem checksumOf_congr_sum {m t f m' t' f' : Byte}
    (h : (rev8 m).toNat + (rev8 t).toNat + (rev8 f).toNat = (rev8 m').toNat + (rev8 t').toNat + (rev8 f').toNat) :
    checksumOf m t f = checksumOf m' t' f' := by
  have htotal : checksumTotal m t f = checksumTotal m' t' f' := by
    apply BitVec.eq_of_toNat_eq
    rw [checksumTotal_toNat, checksumTotal_toNat]
    omega
  rw [checksumOf, checksumOf, htotal]

/-- The total of a request: 33, the reversed codes of mode and fan, and 16 times the index (44_checksum.md R92). -/
theorem checksumTotal_codes_toNat (m f : Sel) (t : Int) :
    (checksumTotal (modeLut m) (tempEnc t) (fanLut f)).toNat =
      33 + 16 * (tempIdx t).toNat + (rev8 (modeLut m)).toNat + (rev8 (fanLut f)).toNat := by
  rw [checksumTotal_toNat, rev8_tempEnc_toNat]
  omega

/-! ### The difference -/

/-- In hardware the remainder is the low 8 bits of the 10-bit difference (44_checksum.md R88). -/
theorem checksumDiff_eq_setWidth (total : Total) : checksumDiff total = (208 - total).setWidth 8 := by
  apply BitVec.eq_of_toNat_eq
  have hdiff := checksumDiff_toNat total
  have hlt := total.isLt
  have hsub : ((208 - total).setWidth 8).toNat = (1024 - total.toNat + 208) % 1024 % 256 := by
    simp [BitVec.toNat_setWidth, BitVec.toNat_sub]
  omega

/-- Taken from 176 in 8-bit wrapping arithmetic: `208 - 32 = 176` (44_checksum.md R88). -/
theorem checksumDiff_checksumTotal (m t f : Byte) :
    checksumDiff (checksumTotal m t f) = 176 - rev8 m - rev8 t - rev8 f := by
  apply BitVec.eq_of_toNat_eq
  have hdiff := checksumDiff_toNat (checksumTotal m t f)
  rw [checksumTotal_toNat] at hdiff
  have hm := (rev8 m).isLt
  have ht := (rev8 t).isLt
  have hf := (rev8 f).isLt
  simp only [BitVec.toNat_sub, show (176 : Byte).toNat = 176 from rfl]
  omega

/-- The difference of a request, in the same terms as its total: `208 - 33 = 175` (44_checksum.md R92). -/
theorem checksumDiff_codes_toNat (m f : Sel) (t : Int) :
    ((checksumDiff (checksumTotal (modeLut m) (tempEnc t) (fanLut f))).toNat : Int) =
      (175 - 16 * ((tempIdx t).toNat : Int) - (rev8 (modeLut m)).toNat - (rev8 (fanLut f)).toNat) % 256 := by
  rw [checksumDiff_toNat, checksumTotal_codes_toNat]
  omega

/-! ### The obligations -/

/-- Settles O32: the operation drives the calculator's own wires only. -/
theorem checksumResult : Obligations.ChecksumResult :=
  fun m t f _ => ⟨_, _, _, rfl, checksumTotal_toNat m t f, checksumDiff_toNat _, rfl⟩

/-- Settles O33: the two wrapping differences have the remainder's value. -/
theorem checksumDifference : Obligations.ChecksumDifference :=
  fun m t f => ⟨checksumDiff_toNat _, checksumDiff_eq_setWidth _, checksumDiff_checksumTotal m t f, by omega⟩

/-- Settles O34: each of the five other orders has the same sum. -/
theorem checksumIsSymmetric : Obligations.ChecksumIsSymmetric := by
  intro m t f
  refine ⟨?_, ?_, ?_, ?_, ?_⟩ <;> exact checksumOf_congr_sum (by omega)

/-- Settles O35: reversing the checksum gives the difference back, and with the total it makes 208. -/
theorem checksumRelation : Obligations.ChecksumRelation :=
  fun m t f => ⟨rev8_checksumOf m t f, checksumTotal_add_rev8_checksumOf m t f⟩

/-- Settles O36: the two reversed codes, at most 4 each, cannot make up for a step of `k` from 10 to 11. The signals
have their functions of the inputs on both branches (log entry 7), so the mode's hypothesis is not consulted. -/
theorem checksumClosedForm : Obligations.ChecksumClosedForm := by
  intro m f c s t _ hexec
  obtain rfl : s.driveBlock ⟨m, f, c⟩ = t := by simpa [exec_requestInstr] using hexec
  have hmode := rev8_modeLut_le m
  have hfan := rev8_fanLut_le f
  have htotal := checksumTotal_codes_toNat m f (tempValue c)
  have hlo : 33 ≤ (checksumTotal (modeLut m) (tempEnc (tempValue c)) (fanLut f)).toNat := by omega
  have hhi := checksumTotal_codes_le m f (tempValue c)
  have hneg : 208 - ((checksumTotal (modeLut m) (tempEnc (tempValue c)) (fanLut f)).toNat : Int) < 0 ↔
      11 ≤ (tempIdx (tempValue c)).toNat := by omega
  have hdiff := checksumDiff_codes_toNat m f (tempValue c)
  exact ⟨_, _, _, tempIdx_toNat_emod _, rfl, rfl, hmode, hfan, htotal, hlo, hhi, hdiff, rfl, hneg⟩

end Sys2Proof.Machine
end

