-- ==== Sys2Proof/Proofs/Exceptions.lean ====
section
/-! SUPPORT and proof. What the block does with anomalous inputs: an undefined pin is refused, an unrecognized or wrapped field
cannot be told from the field it falls back to, and power-off comes before every field (60_exceptions.md R95 to R100). -/

namespace Sys2Proof.Machine

/-! ### Undefined pins -/

/-- One undefined pin is enough: what is presented is not all defined. -/
theorem allDefined_of_undefined_mem {p : Presented} (h : Level.undefined ∈ p.pins) : p.allDefined = false :=
  List.all_eq_false.mpr ⟨.undefined, h, by decide⟩

/-- Settles O4: the decoder rejects pins that are not all defined, and the step refuses by name what it rejects. -/
theorem undefinedInputBitIsRefused : Obligations.UndefinedInputBitIsRefused := by
  intro s p rest hreq hcount hpin
  exact step_of_error hreq (decode_of_undefined hcount (allDefined_of_undefined_mem hpin))

/-! ### Anomalies -/

/-- The fan selector reaches the frame through its code alone. -/
theorem encodeFrame_congr_fan (m : Sel) {f f' : Sel} (c : Byte) (h : fanLut f = fanLut f') :
    encodeFrame ⟨m, f, c⟩ = encodeFrame ⟨m, f', c⟩ := by
  by_cases hm : m = 5
  · rw [encodeFrame_off hm, encodeFrame_off hm]
  · rw [encodeFrame_command hm, encodeFrame_command hm, h]

/-- Adding 16 on the port keeps the temperature mod 16, also where the port wraps from 127 to -128. -/
theorem tempValue_add_sixteen_emod (c : Byte) : tempValue (c + 16) % 16 = tempValue c % 16 := by
  have hport := tempValue_emod c
  have hport16 := tempValue_emod (c + 16)
  rw [BitVec.toNat_add, show (16 : Byte).toNat = 16 from rfl] at hport16
  omega

/-- Requests with the same frame have the same frame and length on the outputs, from whatever states they are performed. -/
theorem exec_outputs_of_encodeFrame_eq {m f m' f' : Sel} {c c' : Byte}
    (h : encodeFrame ⟨m, f, c⟩ = encodeFrame ⟨m', f', c'⟩) (s s' : State) :
    ∃ t t' : State, exec (requestInstr m f c) s = .next t ∧ exec (requestInstr m' f' c') s' = .next t' ∧
      t.block.outputs.frameLen = t'.block.outputs.frameLen ∧ t.frame = t'.frame := by
  have houtputs : (Block.settledOn ⟨m, f, c⟩).outputs = (Block.settledOn ⟨m', f', c'⟩).outputs := congrArg outputsOf h
  exact ⟨_, _, exec_requestInstr m f c s, exec_requestInstr m' f' c' s', congrArg Outputs.frameLen houtputs,
    congrArg Outputs.frame houtputs⟩

/-- Settles O49: in each pair the anomalous field has the code of the other one, so the two frames are the same. -/
theorem anomaliesAreIndistinguishable : Obligations.AnomaliesAreIndistinguishable := by
  intro m f c s s'
  refine ⟨fun hmode => ?_, fun hfan => ?_, ?_⟩
  · exact exec_outputs_of_encodeFrame_eq (encodeFrame_unrecognized hmode f c) s s'
  · have hcode : fanLut f = fanLut 0 := fanLut_unrecognized f hfan
    exact exec_outputs_of_encodeFrame_eq (encodeFrame_congr_fan m c hcode) s s'
  · have hcode : tempEnc (tempValue c) = tempEnc (tempValue (c + 16)) := tempEnc_congr (tempValue_add_sixteen_emod c).symm
    exact exec_outputs_of_encodeFrame_eq (encodeFrame_congr_temp m f hcode) s s'

/-! ### Precedence -/

/-- Settles O50: the power-off branch is a constant, and in the layout of the command frame positions 6, 7 and 8 hold the codes
of the temperature, the mode and the fan. -/
theorem powerOffPrecedence : Obligations.PowerOffPrecedence := by
  refine ⟨fun f c s => ?_, fun m m' f f' c c' s s' hm hm' => ?_⟩
  · obtain ⟨-, hframe⟩ := settledOn_off f c
    exact ⟨_, exec_requestInstr 5 f c s, hframe⟩
  · obtain ⟨t, hexec, -, hframe⟩ := commandFrameLayout m f c s hm
    obtain ⟨t', hexec', -, hframe'⟩ := commandFrameLayout m' f' c' s' hm'
    refine ⟨t, t', hexec, hexec', ?_⟩
    rw [hframe, hframe']
    refine ⟨?_, ?_, ?_⟩ <;> (rintro rfl; rfl)

end Sys2Proof.Machine
end

