-- ==== Sys2Proof/Proofs/RoundTrip.lean ====
section
/-! SUPPORT and proof. Decoder and encoder undo each other, and written requests assemble to their request word
(30_encoding.md R38 to R47). -/

namespace Sys2Proof.Machine

/-! ### Decoding what the encoder presents -/

/-- The bits of a request word decode to the operation of its fields. -/
theorem decodeWord_reqWord (m f : Sel) (c : Byte) :
    decodeWord .frameAssembler (reqWord m f c).toNat = requestInstr m f c := by
  rw [decodeWord, BitVec.ofNat_toNat, BitVec.setWidth_eq, decodeReq_reqWord]

/-- An operation's operand bits, read in its own sub-block's format, are the operation. -/
theorem decodeWord_encodeWord (i : Instr) : decodeWord i.unit (encodeWord i) = i := by
  cases i
  case encodeAuto fan temp => exact decodeWord_reqWord 0 fan temp
  case encodeCool fan temp => exact decodeWord_reqWord 1 fan temp
  case encodeDry fan temp => exact decodeWord_reqWord 2 fan temp
  case encodeFan fan temp => exact decodeWord_reqWord 3 fan temp
  case encodeHeat fan temp => exact decodeWord_reqWord 4 fan temp
  case encodeOff fan temp => exact decodeWord_reqWord 5 fan temp
  case encodeUnknown x fan temp => exact (decodeWord_reqWord _ fan temp).trans (requestInstr_unknown x fan temp)
  case checksum m t f => exact decodeWord_checksumWord m t f
  all_goals simp [encodeWord, Instr.unit, decodeWord]

/-- Settles O13: the pins carry all of the operand bits, and the bits are read as the operation they were written for. -/
theorem decodeOfEncode : Obligations.DecodeOfEncode := by
  intro i
  rw [encode, decode_writePins, Nat.mod_eq_of_lt (encodeWord_lt i), decodeWord_encodeWord]

/-! ### Encoding what the decoder reads -/

/-- A CS3 operand is made of its own three bytes. -/
theorem checksumWord_fields (w : BitVec 24) :
    w.extractLsb' 16 8 ++ w.extractLsb' 8 8 ++ w.extractLsb' 0 8 = w := by
  rw [BitVec.append_assoc, BitVec.extractLsb'_append_extractLsb'_eq_extractLsb' (by rfl)]
  exact BitVec.extractLsb'_append_extractLsb'

/-- A number that fits a sub-block's format is the operand bits of the operation read from it. -/
theorem encodeWord_decodeWord {u : SubBlock} {w : Nat} (h : w < 2 ^ u.width) : encodeWord (decodeWord u w) = w := by
  have hfit : (BitVec.ofNat u.width w).toNat = w := (BitVec.toNat_ofNat w u.width).trans (Nat.mod_eq_of_lt h)
  cases u
  case frameAssembler =>
    rw [decodeWord, decodeReq, encodeWord_requestInstr, reqWord_fields]
    exact hfit
  case checksumCalculator =>
    rw [decodeWord, encodeWord, checksumWord_fields]
    exact hfit
  all_goals exact hfit

/-- Settles O14: the number on as many pins as the format has bits fits the format, and written back it gives those pins. -/
theorem encodeOfDecode : Obligations.EncodeOfDecode := by
  intro p i h
  obtain ⟨hcount, w, hread, rfl⟩ := decode_ok h
  obtain ⟨hlt, hwrite⟩ := readPins_some hread
  have hlen : p.pins.length = p.unit.width := by simpa [Presented.rightPinCount] using hcount
  rw [hlen] at hlt hwrite
  rw [encode, decodeWord_unit, encodeWord_decodeWord hlt, hwrite]

/-- Settles O12: pins that were read as a number are all at 0 or 1. -/
theorem onlyWellFormedPinsDecode : Obligations.OnlyWellFormedPinsDecode := by
  intro p i h
  obtain ⟨hcount, w, hread, -⟩ := decode_ok h
  have hdefined : p.allDefined = true := by rw [Presented.allDefined, ← readPins_isSome, hread, Option.isSome_some]
  rw [Presented.wellFormed, hcount, hdefined, Bool.and_self]

/-- Settles O17: each word is evaluated. -/
theorem encodingExamples : Obligations.EncodingExamples := by
  unfold Obligations.EncodingExamples
  decide

/-! ### Written requests -/

theorem tempInRange_iff (t : Int) : tempInRange t = true ↔ -128 ≤ t ∧ t ≤ 127 := by
  simp [tempInRange]

/-- The port holds the temperature's remainder mod 256 (41_code_tables.md R62). -/
theorem tempPort_toNat (t : Int) : ((tempPort t).toNat : Int) = t % 256 := by
  rw [tempPort_eq, BitVec.toNat_ofInt]
  omega

/-- The operand bits of a written request's operation: the request word of 30_encoding.md R39. -/
theorem encodeWord_writtenInstr_encode (mode : ModeName) (fan : FanName) (temp : Int) :
    (encodeWord (writtenInstr (.encode mode fan temp)) : Int) =
      (modeNameSel mode).toNat * 2048 + (fanNameSel fan).toNat * 256 + temp % 256 := by
  rw [writtenInstr, encodeWord_requestInstr, reqWord_toNat, ← tempPort_toNat]
  push_cast
  rfl

/-- Settles O57: the names are evaluated; a written request assembles exactly when its temperature is in range, and then to its
request word. -/
theorem writtenRequestsAssemble : Obligations.WrittenRequestsAssemble := by
  refine ⟨by decide, by decide, fun mode fan temp => ⟨fun hlo hhi => ?_, fun hout => ?_⟩⟩
  · have hwf : (Written.encode mode fan temp).wellFormed = true := (tempInRange_iff temp).mpr ⟨hlo, hhi⟩
    exact ⟨_, assembleWritten_ok hwf, encodeWord_writtenInstr_encode mode fan temp⟩
  · have hrange : ¬ tempInRange temp = true := by
      rw [tempInRange_iff]
      omega
    exact assembleWritten_error (Bool.eq_false_iff.mpr hrange)

/-- Settles O56: the free fan and temperature of `POWER_OFF` do not reach the power-off frame. -/
theorem powerOffAssembles : Obligations.PowerOffAssembles := by
  intro s
  obtain ⟨-, hframe⟩ := settledOn_off Config.powerOffFan Config.powerOffTemp
  exact ⟨_, _, _, _, assembleWritten_ok rfl, rfl, rfl, hframe⟩

end Sys2Proof.Machine
end

