-- ==== Sys2Proof/Proofs/Steps.lean ====
section
/-! SUPPORT and proof. Rules of the whole machine: what an operation drives and leaves alone, settled wires, and runs over the list
of what is presented (10_state.md R19, R23, 20_memory.md R33, 60_exceptions.md R107). -/

namespace Sys2Proof.Machine

/-! ### What an operation drives -/

/-- An operation that presents a request is one of the frame assembler's. -/
theorem unit_of_requestOf {i : Instr} {r : Inputs} (h : requestOf i = some r) : i.unit = .frameAssembler := by
  cases i <;> cases h <;> rfl

/-- An operation that presents a request drives the block with it, in every state. -/
theorem exec_of_requestOf {i : Instr} {r : Inputs} (h : requestOf i = some r) (s : State) :
    exec i s = .next (s.driveBlock r) := by
  cases i <;> cases h <;> rfl

/-- Settles O7: the operation decides which wires settle and on what operands; the state does not enter. -/
theorem nothingDependsOnHistory : Obligations.NothingDependsOnHistory := by
  intro i s s' t t' h h'
  rcases exec_cases i s with ⟨r, hr, e⟩ | ⟨n, rfl, e⟩ | ⟨n, rfl, e⟩ | ⟨sel, rfl, e⟩ | ⟨sel, rfl, e⟩ | ⟨c, rfl, e⟩ |
    ⟨m, c, f, rfl, e⟩
  · cases e.symm.trans h
    cases (exec_of_requestOf hr s').symm.trans h'
    simp [unit_of_requestOf hr]
  all_goals
    cases h
    cases h'
    simp [Instr.unit]

/-- Settles O8: one sub-block is driven, the operation's own, and every other field stays as it was. -/
theorem operationDrivesItsOwnSubBlockOnly : Obligations.OperationDrivesItsOwnSubBlockOnly := by
  intro i s t h
  rcases exec_cases i s with ⟨r, hr, e⟩ | ⟨n, rfl, e⟩ | ⟨n, rfl, e⟩ | ⟨sel, rfl, e⟩ | ⟨sel, rfl, e⟩ | ⟨c, rfl, e⟩ |
    ⟨m, c, f, rfl, e⟩ <;> cases e.symm.trans h
  · simp [unit_of_requestOf hr]
  all_goals simp [Instr.unit]

/-- Settles O45: the block settles on the request, and each signal is its function by definition. -/
theorem signalsFollowTheInputs : Obligations.SignalsFollowTheInputs :=
  fun m f c s => ⟨_, exec_requestInstr m f c s, rfl, isOff_iff m, rfl, rfl, rfl, tempIdx_toNat_emod _, rfl, rfl, rfl⟩

/-! ### Settled wires -/

/-- Settles O1: every wire at reset is written as settled on its operands. -/
theorem resetWiresFollowInputs : Obligations.ResetWiresFollowInputs :=
  ⟨⟨Block.settledOn_self _, rfl, rfl, rfl, rfl, rfl, rfl⟩, rfl, rfl⟩

/-- The list is no wire: taking entries off it leaves a settled state settled. -/
theorem State.Settled.with_requests {s : State} (h : s.Settled) (rest : List Presented) :
    State.Settled { s with requests := rest } := { h with }

/-- A request that settles leaves the block settled, and the other wires as they were. -/
theorem State.Settled.driveBlock {s : State} (h : s.Settled) (r : Inputs) : (s.driveBlock r).Settled :=
  { h with block := Block.settledOn_self r }

/-- Every operation settles what it drives. -/
theorem exec_keeps_settled {i : Instr} {s t : State} (hs : s.Settled) (h : exec i s = .next t) : t.Settled := by
  rcases exec_cases i s with ⟨r, -, e⟩ | ⟨n, -, e⟩ | ⟨n, -, e⟩ | ⟨sel, -, e⟩ | ⟨sel, -, e⟩ | ⟨c, -, e⟩ |
    ⟨m, c, f, -, e⟩ <;> cases e.symm.trans h
  · exact hs.driveBlock r
  · exact { hs with rev8 := rfl }
  · exact { hs with rev4 := rfl }
  · exact { hs with modeLut := rfl }
  · exact { hs with fanLut := rfl }
  · exact { hs with tempEnc := rfl }
  · exact { hs with checksum := rfl }

/-- Settles O2: a step holds the request on the inputs, or performs an operation with an entry off the list. -/
theorem stepKeepsWiresSettled : Obligations.StepKeepsWiresSettled := by
  intro s t hs h
  rcases step_next h with ⟨-, rfl⟩ | ⟨p, rest, i, -, -, hexec⟩
  · exact hs.driveBlock _
  · exact exec_keeps_settled (hs.with_requests rest) hexec

/-- Settles O10: a settled block already is what settling on its own inputs makes of it. -/
theorem heldRequestChangesNothing : Obligations.HeldRequestChangesNothing := by
  intro s hsettled hempty
  have hblock : Block.settledOn s.block.inputs = s.block := hsettled.symm
  rw [step_of_held hempty, State.driveBlock, hblock]

/-! ### One step -/

/-- Settles O3: what is presented next decodes to `i`; the held request decodes to the operation of the inputs. -/
theorem stepPerformsPresentedOperation : Obligations.StepPerformsPresentedOperation :=
  ⟨fun _ _ _ _ hreq hdec => step_of_ok hreq hdec,
    fun s hempty => (step_of_held hempty).trans (exec_requestInstr _ _ _ s).symm⟩

/-- An operation leaves what is still to be presented as it was. -/
theorem exec_requests {i : Instr} {s t : State} (h : exec i s = .next t) : t.requests = s.requests :=
  (operationDrivesItsOwnSubBlockOnly i s t h).left

/-- Settles O9: with nothing left the tail is empty too; else the entry fetched is off the list the operation leaves alone. -/
theorem stepTakesOneRequest : Obligations.StepTakesOneRequest := by
  intro s t h
  rcases step_next h with ⟨hempty, rfl⟩ | ⟨p, rest, i, hreq, -, hexec⟩
  · rw [State.driveBlock_requests, hempty, List.tail_nil]
  · rw [exec_requests hexec, hreq, List.tail_cons]

/-- From a list that can be presented a step answers a next state: well-formed pins decode, and every operation completes. -/
theorem step_of_presentable {s : State} (h : s.Presentable) : ∃ t, step s = .next t := by
  cases hreq : s.requests with
  | nil => exact ⟨_, step_of_held hreq⟩
  | cons p rest =>
    have hwf : p.wellFormed = true := h p (by simp [hreq])
    obtain ⟨w, -, hdec⟩ := decode_of_wellFormed hwf
    obtain ⟨t, hexec, -⟩ := exec_next (decodeWord p.unit w) { s with requests := rest }
    exact ⟨t, (step_of_ok hreq hdec).trans hexec⟩

/-- Settles O58: the step goes on, and the entries it leaves were on the list before. -/
theorem stepKeepsProgramPresentable : Obligations.StepKeepsProgramPresentable := by
  intro s hs
  obtain ⟨t, hstep⟩ := step_of_presentable hs
  refine ⟨t, hstep, fun p hp => hs p ?_⟩
  rw [stepTakesOneRequest s t hstep] at hp
  exact List.mem_of_mem_tail hp

/-! ### Runs -/

/-- From a list that can be presented any number of steps runs. -/
theorem run_of_presentable (k : Nat) {s : State} (hs : s.Presentable) : ∃ t, Sys2Proof.core.run k s = .next t := by
  induction k generalizing s with
  | zero => exact ⟨s, run_zero s⟩
  | succ k ih =>
    obtain ⟨t, hstep, ht⟩ := stepKeepsProgramPresentable s hs
    rw [run_succ k hstep]
    exact ih ht

/-- Settles O5: a request's frame is that of the settled block, on either branch, and a step never gets stuck. -/
theorem nothingStopsTheBlock : Obligations.NothingStopsTheBlock := by
  refine ⟨fun m f c s => ⟨_, exec_requestInstr m f c s, ?_⟩, fun k s hs => run_of_presentable k hs⟩
  show (Block.settledOn ⟨m, f, c⟩).outputs.frame.length = 5 ∨ (Block.settledOn ⟨m, f, c⟩).outputs.frame.length = 14
  rw [settledOn_frame, encodeFrame_length]
  split
  · exact .inl rfl
  · exact .inr rfl

/-- A step with a request presented next takes it off the list and settles the block on it. -/
theorem step_of_request {s : State} {i : Inputs} {rest : List Presented} (h : s.requests = heldRequest i :: rest) :
    step s = .next (State.driveBlock i { s with requests := rest }) :=
  (step_of_ok h (decode_heldRequest i)).trans (exec_requestInstr _ _ _ _)

/-- Settles O6, by induction on `k`: the first request gives its frame at once; for a later one, a step takes the first request
off the list, and what it did to the wires does not matter. -/
theorem framesOfASequenceOfRequests : Obligations.FramesOfASequenceOfRequests := by
  intro reqs s k i hreqs hget
  induction k generalizing reqs s with
  | zero =>
    cases reqs with
    | nil => cases hget
    | cons j rest =>
      cases hget
      exact ⟨_, (run_succ 0 (step_of_request hreqs)).trans (run_zero _), settledOn_frame _⟩
  | succ k ih =>
    cases reqs with
    | nil => cases hget
    | cons j rest =>
      rw [run_succ (k + 1) (step_of_request hreqs)]
      exact ih rest _ rfl hget

end Sys2Proof.Machine
end
